-- ==== Sys2Proof/Word.lean ====
section
/-! DEFINITION. The bit vectors and register numbers of the CHIP-8 core (00_scope.md R9, R15, R16): a byte,
a 16-bit word, a 12-bit address field, a nibble, and the number of a general register. -/

namespace Sys2Proof

/-- A byte: a general register, a timer, a byte of memory, the field NN (R9, R15). -/
abbrev Byte := BitVec 8

/-- A 16-bit word: I, PC, a stack slot, an opcode (R9, R57). -/
abbrev Word := BitVec 16

/-- The 12-bit field NNN (R15). -/
abbrev Addr := BitVec 12

/-- A 4-bit slice of an opcode (R19); the field N (R15). -/
abbrev Nibble := BitVec 4

/-- The number of a general register V0-VF: the fields X and Y (R59). -/
abbrev Reg := Fin 16

/-- VF, "also the flag register" (R21). -/
abbrev regF : Reg := 15

/-- `zext_16` of R16 on a 12-bit field. -/
abbrev zextAddr (a : Addr) : Word := a.setWidth 16

/-- `zext_16` of R16 on a byte. -/
abbrev zextByte (b : Byte) : Word := b.setWidth 16

end Sys2Proof
end

