-- ==== Sys2Proof/Syntax.lean ====
section
/-! DEFINITION. The 34 instructions (30_encoding.md R61, one constructor per row of opcode_table.json) and the five
transactions that drive the block (00_scope.md R7), with the answers the host gets (60_exceptions.md R123;
70_reset_and_hazards.md R132-R135). -/

namespace Sys2Proof

/-- The instructions, in the order of R61's table; each field has the width R58 and R59 give it. -/
inductive Instr where
  | cls                                 -- 00E0 CLS (R100)
  | ret                                 -- 00EE RET (R72)
  | jp (nnn : Addr)                     -- 1NNN JP addr (R73)
  | call (nnn : Addr)                   -- 2NNN CALL addr (R74)
  | seByte (x : Reg) (nn : Byte)        -- 3XNN SE Vx, byte (R75)
  | sneByte (x : Reg) (nn : Byte)       -- 4XNN SNE Vx, byte (R76)
  | seReg (x y : Reg)                   -- 5XY0 SE Vx, Vy (R77)
  | ldByte (x : Reg) (nn : Byte)        -- 6XNN LD Vx, byte (R81)
  | addByte (x : Reg) (nn : Byte)       -- 7XNN ADD Vx, byte (R82)
  | ldReg (x y : Reg)                   -- 8XY0 LD Vx, Vy (R83)
  | orReg (x y : Reg)                   -- 8XY1 OR Vx, Vy (R84)
  | andReg (x y : Reg)                  -- 8XY2 AND Vx, Vy (R85)
  | xorReg (x y : Reg)                  -- 8XY3 XOR Vx, Vy (R86)
  | addReg (x y : Reg)                  -- 8XY4 ADD Vx, Vy (R87)
  | sub (x y : Reg)                     -- 8XY5 SUB Vx, Vy (R88)
  | shr (x y : Reg)                     -- 8XY6 SHR Vx (R89); y is encoded
  | subn (x y : Reg)                    -- 8XY7 SUBN Vx, Vy (R90)
  | shl (x y : Reg)                     -- 8XYE SHL Vx (R91); y is encoded
  | sneReg (x y : Reg)                  -- 9XY0 SNE Vx, Vy (R78)
  | ldI (nnn : Addr)                    -- ANNN LD I, addr (R94)
  | jpV0 (nnn : Addr)                   -- BNNN JP V0, addr (R79)
  | rnd (x : Reg) (nn : Byte)           -- CXNN RND Vx, byte (R92)
  | drw (x y : Reg) (n : Nibble)        -- DXYN DRW Vx, Vy, nibble (R101)
  | skp (x : Reg)                       -- EX9E SKP Vx (R104)
  | sknp (x : Reg)                      -- EXA1 SKNP Vx (R105)
  | ldVxDt (x : Reg)                    -- FX07 LD Vx, DT (R106)
  | ldVxK (x : Reg)                     -- FX0A LD Vx, K (R109)
  | ldDtVx (x : Reg)                    -- FX15 LD DT, Vx (R107)
  | ldStVx (x : Reg)                    -- FX18 LD ST, Vx (R108)
  | addI (x : Reg)                      -- FX1E ADD I, Vx (R95)
  | ldF (x : Reg)                       -- FX29 LD F, Vx (R96)
  | ldB (x : Reg)                       -- FX33 LD B, Vx (R97)
  | stRegs (x : Reg)                    -- FX55 LD [I], Vx (R98)
  | ldRegs (x : Reg)                    -- FX65 LD Vx, [I] (R99)
  deriving DecidableEq, Repr

/-- The transactions of R7. SET_KEY's k is any number, since R123 says what happens outside 0..15; LOAD's bytes are any
list, since R132 says what happens above 3584 bytes. -/
inductive Transaction where
  | step
  | tick
  | setKey (k : Nat) (pressed : Bool)
  | load (bytes : List Byte)
  | reset
  deriving DecidableEq, Repr

/-- What a transaction answers its issuer: taken, refused at the interface (R123, R135), or LOAD's RomTooLarge (R133). -/
inductive Response where
  | ok
  | refused
  | romTooLarge
  deriving DecidableEq, Repr

end Sys2Proof
end

