-- ==== Sys2Proof/Decode.lean ====
section
/-! DEFINITION. The decoder and the encoder (30_encoding.md R57-R64): the fields of a word, the instruction a word
stands for, decoding of bytes in memory order, the encoder, and the opcode table's rows of fixed bits. -/

namespace Sys2Proof

/-! ## Fields (R15, R58) -/

/-- b3 = op[15:12]. -/
def nib3 (w : Word) : Nibble := w.extractLsb' 12 4

/-- b2 = op[11:8]. -/
def nib2 (w : Word) : Nibble := w.extractLsb' 8 4

/-- b1 = op[7:4]. -/
def nib1 (w : Word) : Nibble := w.extractLsb' 4 4

/-- b0 = op[3:0]. -/
def nib0 (w : Word) : Nibble := w.extractLsb' 0 4

/-- X = op[11:8]. -/
def fieldX (w : Word) : Reg := (nib2 w).toFin

/-- Y = op[7:4]. -/
def fieldY (w : Word) : Reg := (nib1 w).toFin

/-- NN = op[7:0]. -/
def fieldNN (w : Word) : Byte := w.extractLsb' 0 8

/-- NNN = op[11:0]. -/
def fieldNNN (w : Word) : Addr := w.extractLsb' 0 12

/-! ## Decoding (R61, R63) -/

/-- Family 8: the function nibble selects the operation. -/
def decodeAlu (w : Word) : Option Instr :=
  if nib0 w = 0x0 then some (.ldReg (fieldX w) (fieldY w))
  else if nib0 w = 0x1 then some (.orReg (fieldX w) (fieldY w))
  else if nib0 w = 0x2 then some (.andReg (fieldX w) (fieldY w))
  else if nib0 w = 0x3 then some (.xorReg (fieldX w) (fieldY w))
  else if nib0 w = 0x4 then some (.addReg (fieldX w) (fieldY w))
  else if nib0 w = 0x5 then some (.sub (fieldX w) (fieldY w))
  else if nib0 w = 0x6 then some (.shr (fieldX w) (fieldY w))
  else if nib0 w = 0x7 then some (.subn (fieldX w) (fieldY w))
  else if nib0 w = 0xE then some (.shl (fieldX w) (fieldY w))
  else none

/-- Family E: the low byte selects the test. -/
def decodeKey (w : Word) : Option Instr :=
  if fieldNN w = 0x9E then some (.skp (fieldX w))
  else if fieldNN w = 0xA1 then some (.sknp (fieldX w))
  else none

/-- Family F: the low byte selects the operation. -/
def decodeMisc (w : Word) : Option Instr :=
  if fieldNN w = 0x07 then some (.ldVxDt (fieldX w))
  else if fieldNN w = 0x0A then some (.ldVxK (fieldX w))
  else if fieldNN w = 0x15 then some (.ldDtVx (fieldX w))
  else if fieldNN w = 0x18 then some (.ldStVx (fieldX w))
  else if fieldNN w = 0x1E then some (.addI (fieldX w))
  else if fieldNN w = 0x29 then some (.ldF (fieldX w))
  else if fieldNN w = 0x33 then some (.ldB (fieldX w))
  else if fieldNN w = 0x55 then some (.stRegs (fieldX w))
  else if fieldNN w = 0x65 then some (.ldRegs (fieldX w))
  else none

/-- `Decode(op)` of R61; `none` is `Unknown`. -/
def decodeWord (w : Word) : Option Instr :=
  if nib3 w = 0x0 then
    if w = 0x00E0 then some .cls else if w = 0x00EE then some .ret else none
  else if nib3 w = 0x1 then some (.jp (fieldNNN w))
  else if nib3 w = 0x2 then some (.call (fieldNNN w))
  else if nib3 w = 0x3 then some (.seByte (fieldX w) (fieldNN w))
  else if nib3 w = 0x4 then some (.sneByte (fieldX w) (fieldNN w))
  else if nib3 w = 0x5 then
    if nib0 w = 0x0 then some (.seReg (fieldX w) (fieldY w)) else none
  else if nib3 w = 0x6 then some (.ldByte (fieldX w) (fieldNN w))
  else if nib3 w = 0x7 then some (.addByte (fieldX w) (fieldNN w))
  else if nib3 w = 0x8 then decodeAlu w
  else if nib3 w = 0x9 then
    if nib0 w = 0x0 then some (.sneReg (fieldX w) (fieldY w)) else none
  else if nib3 w = 0xA then some (.ldI (fieldNNN w))
  else if nib3 w = 0xB then some (.jpV0 (fieldNNN w))
  else if nib3 w = 0xC then some (.rnd (fieldX w) (fieldNN w))
  else if nib3 w = 0xD then some (.drw (fieldX w) (fieldY w) (nib0 w))
  else if nib3 w = 0xE then decodeKey w
  else decodeMisc w

/-- Why bytes do not decode: fewer than two of them, or a word that matches no pattern (R64). -/
inductive DecodeError where
  | truncated
  | unknownOpcode (w : Word)
  deriving DecidableEq, Repr

/-- The word two bytes spell: the byte at the lower address is the most significant (R45). -/
def wordOfBytes (hi lo : Byte) : Word := hi ++ lo

/-- Decoding of a byte stream: "A decoder always consumes exactly 2 bytes" (R57). -/
def decode : List Byte → Except DecodeError (Instr × List Byte)
  | hi :: lo :: rest =>
    match decodeWord (wordOfBytes hi lo) with
    | some i => .ok (i, rest)
    | none => .error (.unknownOpcode (wordOfBytes hi lo))
  | _ => .error .truncated

/-! ## Encoding (R58, R61) -/

/-- The 4 bits of a register field. -/
def regBits (r : Reg) : Nibble := BitVec.ofFin r

/-- Format `XNN`. -/
def formatXNN (family : Nibble) (x : Reg) (nn : Byte) : Word := family ++ regBits x ++ nn

/-- Formats `XY` and `XYN`. -/
def formatXYN (family : Nibble) (x y : Reg) (n : Nibble) : Word := family ++ regBits x ++ regBits y ++ n

/-- Format `A`. -/
def formatA (family : Nibble) (nnn : Addr) : Word := family ++ nnn

/-- The word of an instruction. -/
def encode : Instr → Word
  | .cls => 0x00E0
  | .ret => 0x00EE
  | .jp nnn => formatA 0x1 nnn
  | .call nnn => formatA 0x2 nnn
  | .seByte x nn => formatXNN 0x3 x nn
  | .sneByte x nn => formatXNN 0x4 x nn
  | .seReg x y => formatXYN 0x5 x y 0x0
  | .ldByte x nn => formatXNN 0x6 x nn
  | .addByte x nn => formatXNN 0x7 x nn
  | .ldReg x y => formatXYN 0x8 x y 0x0
  | .orReg x y => formatXYN 0x8 x y 0x1
  | .andReg x y => formatXYN 0x8 x y 0x2
  | .xorReg x y => formatXYN 0x8 x y 0x3
  | .addReg x y => formatXYN 0x8 x y 0x4
  | .sub x y => formatXYN 0x8 x y 0x5
  | .shr x y => formatXYN 0x8 x y 0x6
  | .subn x y => formatXYN 0x8 x y 0x7
  | .shl x y => formatXYN 0x8 x y 0xE
  | .sneReg x y => formatXYN 0x9 x y 0x0
  | .ldI nnn => formatA 0xA nnn
  | .jpV0 nnn => formatA 0xB nnn
  | .rnd x nn => formatXNN 0xC x nn
  | .drw x y n => formatXYN 0xD x y n
  | .skp x => formatXNN 0xE x 0x9E
  | .sknp x => formatXNN 0xE x 0xA1
  | .ldVxDt x => formatXNN 0xF x 0x07
  | .ldVxK x => formatXNN 0xF x 0x0A
  | .ldDtVx x => formatXNN 0xF x 0x15
  | .ldStVx x => formatXNN 0xF x 0x18
  | .addI x => formatXNN 0xF x 0x1E
  | .ldF x => formatXNN 0xF x 0x29
  | .ldB x => formatXNN 0xF x 0x33
  | .stRegs x => formatXNN 0xF x 0x55
  | .ldRegs x => formatXNN 0xF x 0x65

/-- The high byte of a word, which stands at the lower address (R45). -/
def highByte (w : Word) : Byte := w.extractLsb' 8 8

/-- The low byte of a word. -/
def lowByte (w : Word) : Byte := w.extractLsb' 0 8

/-- An instruction's two bytes in memory order (R45, R57). -/
def encodeBytes (i : Instr) : List Byte := [highByte (encode i), lowByte (encode i)]

/-! ## The opcode table's fixed bits -/

/-- A row's `mask` and `match` in opcode_table.json: a word is the row's when its masked bits are the fixed ones. -/
structure TableRow where
  mask : Word
  fixed : Word
  deriving DecidableEq, Repr

/-- A word belongs to a row (R61: "selected by the fixed bits of its pattern"). -/
def TableRow.selects (r : TableRow) (w : Word) : Bool := w &&& r.mask == r.fixed

/-- The row of each instruction, `mask` and `match` as opcode_table.json has them. -/
def tableRow : Instr → TableRow
  | .cls => ⟨0xFFFF, 0x00E0⟩
  | .ret => ⟨0xFFFF, 0x00EE⟩
  | .jp _ => ⟨0xF000, 0x1000⟩
  | .call _ => ⟨0xF000, 0x2000⟩
  | .seByte _ _ => ⟨0xF000, 0x3000⟩
  | .sneByte _ _ => ⟨0xF000, 0x4000⟩
  | .seReg _ _ => ⟨0xF00F, 0x5000⟩
  | .ldByte _ _ => ⟨0xF000, 0x6000⟩
  | .addByte _ _ => ⟨0xF000, 0x7000⟩
  | .ldReg _ _ => ⟨0xF00F, 0x8000⟩
  | .orReg _ _ => ⟨0xF00F, 0x8001⟩
  | .andReg _ _ => ⟨0xF00F, 0x8002⟩
  | .xorReg _ _ => ⟨0xF00F, 0x8003⟩
  | .addReg _ _ => ⟨0xF00F, 0x8004⟩
  | .sub _ _ => ⟨0xF00F, 0x8005⟩
  | .shr _ _ => ⟨0xF00F, 0x8006⟩
  | .subn _ _ => ⟨0xF00F, 0x8007⟩
  | .shl _ _ => ⟨0xF00F, 0x800E⟩
  | .sneReg _ _ => ⟨0xF00F, 0x9000⟩
  | .ldI _ => ⟨0xF000, 0xA000⟩
  | .jpV0 _ => ⟨0xF000, 0xB000⟩
  | .rnd _ _ => ⟨0xF000, 0xC000⟩
  | .drw _ _ _ => ⟨0xF000, 0xD000⟩
  | .skp _ => ⟨0xF0FF, 0xE09E⟩
  | .sknp _ => ⟨0xF0FF, 0xE0A1⟩
  | .ldVxDt _ => ⟨0xF0FF, 0xF007⟩
  | .ldVxK _ => ⟨0xF0FF, 0xF00A⟩
  | .ldDtVx _ => ⟨0xF0FF, 0xF015⟩
  | .ldStVx _ => ⟨0xF0FF, 0xF018⟩
  | .addI _ => ⟨0xF0FF, 0xF01E⟩
  | .ldF _ => ⟨0xF0FF, 0xF029⟩
  | .ldB _ => ⟨0xF0FF, 0xF033⟩
  | .stRegs _ => ⟨0xF0FF, 0xF055⟩
  | .ldRegs _ => ⟨0xF0FF, 0xF065⟩

/-! ## The table's word as the host numbers it -/

/-- The instruction the decoder reads from an instruction whose bits are `w`, numbered as opcode_table.json numbers
them: one 16-bit word, stored high byte first. -/
def decodeTableWord (nbits w : Nat) : Option Instr :=
  let word : Word := BitVec.ofNat 16 (w % 2 ^ nbits)
  match decode [highByte word, lowByte word] with
  | .ok (i, _) => some i
  | .error _ => none

end Sys2Proof
end

