-- ==== Sys2Proof/Config.lean ====
section
/-! DEFINITION. What is fixed for this hardware and no state of it (00_scope.md R9-R14; 10_state.md R36), and the
values the spec leaves free, as constants without a body. -/

namespace Sys2Proof

/-- `STACK_DEPTH`, 16 on this hardware (R10). Log 9. -/
abbrev Config.stackDepth : Nat := 16

/-- The number of bytes of Mem (R9, R41). -/
abbrev Config.memBytes : Nat := 4096

/-- The address LOAD copies to, and the reset value of PC (R9, R51). -/
abbrev Config.programBase : Nat := 0x200

/-- `FONT_BASE` (R11). -/
abbrev Config.fontBase : Nat := 0x000

/-- `SHIFT_USES_VY`, false on this hardware (R13). Log 10. -/
def Config.shiftUsesVY : Bool := false

/-- The parameter `FONT`: 16 glyphs of 5 bytes (R9, R12). An instance's font is carried in `State.font`. -/
abbrev Font := Vector Byte 80

/-- The default table of 10_state.md R32. PRESUMED, log 8: the source gives no bytes. -/
def Config.fontTable : List Byte :=
  [0xF0, 0x90, 0x90, 0x90, 0xF0] ++ [0x20, 0x60, 0x20, 0x20, 0x70] ++
  [0xF0, 0x10, 0xF0, 0x80, 0xF0] ++ [0xF0, 0x10, 0xF0, 0x10, 0xF0] ++
  [0x90, 0x90, 0xF0, 0x10, 0x10] ++ [0xF0, 0x80, 0xF0, 0x10, 0xF0] ++
  [0xF0, 0x80, 0xF0, 0x90, 0xF0] ++ [0xF0, 0x10, 0x20, 0x40, 0x40] ++
  [0xF0, 0x90, 0xF0, 0x90, 0xF0] ++ [0xF0, 0x90, 0xF0, 0x10, 0xF0] ++
  [0xF0, 0x90, 0xF0, 0x90, 0x90] ++ [0xE0, 0x90, 0xE0, 0x90, 0xE0] ++
  [0xF0, 0x80, 0x80, 0x80, 0xF0] ++ [0xE0, 0x90, 0x90, 0x90, 0xE0] ++
  [0xF0, 0x80, 0xF0, 0x80, 0xF0] ++ [0xF0, 0x80, 0xF0, 0x80, 0x80]

/-- `FONT` of this hardware, the default (R12, R32). -/
def Config.font : Font := ⟨Config.fontTable.toArray, rfl⟩

/-- The byte the random source gives at its n-th draw (R14, R124): a free value, of which nothing is known. Log 2. -/
opaque Config.randomByte : Nat → Byte

/-- The n-th byte the spec leaves unspecified (R111, U7): a free value. Log 3. -/
opaque Config.unspecifiedByte : Nat → Byte

/-- The n-th word the spec leaves unspecified (U10: err.opcode of a fetch fault): a free value. Log 4. -/
opaque Config.unspecifiedWord : Nat → Word

end Sys2Proof
end

