-- ==== Sys2Proof/Machine/Memory.lean ====
section
/-! DEFINITION. Mem as plain data (10_state.md R30; 20_memory.md R41, R51): a list of (address, byte) pairs in one
canonical form, over the contents RESET leaves. Log 15. -/

namespace Sys2Proof.Machine

/-- Mem: the bytes that differ from what RESET leaves there with the default FONT. -/
abbrev Memory := List Host.Cell

/-- What an address that is not listed reads as: the contents after RESET (R39) with the default FONT: its table at
FONT_BASE, 0 elsewhere. -/
def Memory.resetByte (a : Nat) : Byte :=
  if Config.fontBase ≤ a then Config.fontTable.getD (a - Config.fontBase) 0 else 0

/-- The byte at an address. -/
def Memory.read : Memory → Nat → Byte
  | [], a => Memory.resetByte a
  | (k, b) :: rest, a => if k = a then b else Memory.read rest a

/-- A cell in front of a memory, left out when it says what an unlisted address says. -/
def Memory.consCell (a : Nat) (b : Byte) (m : Memory) : Memory :=
  if b = Memory.resetByte a then m else (a, b) :: m

/-- `Mem[a] <- b`, keeping the canonical form. -/
def Memory.write : Memory → Nat → Byte → Memory
  | [], a, b => Memory.consCell a b []
  | (k, c) :: rest, a, b =>
    if a < k then Memory.consCell a b ((k, c) :: rest)
    else if a = k then Memory.consCell a b rest
    else (k, c) :: Memory.write rest a b

/-- Consecutive bytes written in ascending order from an address. -/
def Memory.writeBytes (m : Memory) (a : Nat) : List Byte → Memory
  | [] => m
  | b :: bs => Memory.writeBytes (Memory.write m a b) (a + 1) bs

/-- Mem after RESET with the parameter `font`: zero-filled, then the font at FONT_BASE (R39, R130). -/
def Memory.seeded (font : Font) : Memory := Memory.writeBytes [] Config.fontBase font.toList

/-- Every cell lies at or above `lo`, below the end of Mem, strictly rising, and differs from the reset contents. -/
def Memory.wfFrom (lo : Nat) : Memory → Bool
  | [] => true
  | (k, b) :: rest =>
    decide (lo ≤ k) && decide (k < Config.memBytes) && decide (b ≠ Memory.resetByte k) && Memory.wfFrom (k + 1) rest

/-- The canonical form of Mem. -/
def Memory.wf (m : Memory) : Bool := Memory.wfFrom 0 m

end Sys2Proof.Machine
end

