-- ==== Sys2Proof/Machine/State.lean ====
section
/-! DEFINITION. The state of the block (10_state.md R20-R36), the fatal errors and refusals, and the state RESET
leaves (10_state.md R39). -/

namespace Sys2Proof.Machine

/-- The five fatal errors of R110. The spec describes what raising one does (R111), so a step that raises one answers
the halted NEXT state with the error in `err` (`raise`), never `Outcome.fault`: exact, neither safe nor unsafe by
itself (log 5). -/
inductive Fault where
  /-- Raised by CALL when SP = STACK_DEPTH (R74); exact. -/
  | stackOverflow
  /-- Raised by RET when SP = 0 (R72); exact. -/
  | stackUnderflow
  /-- Raised by STEP when the fetched word matches no pattern (R60, R64); exact. -/
  | unknownOpcode
  /-- Raised by the fetch, DRW, LD B, LD [I] and LD Vx, [I] on an address above 0xFFF (R42, R48); what such an
  instruction would have written is left free (log 3), which is safe. -/
  | outOfBoundsAccess
  /-- Raised by SKP and SKNP when V[X] > 15 (R104, R105); exact. -/
  | keyIndexOutOfRange
  deriving DecidableEq, Repr

/-- Why a step has no meaning. -/
inductive Refusal where
  /-- An instruction without a meaning yet would be refused so by `exec`; no arm does: safe. -/
  | notModelled (mnemonic : String)
  deriving DecidableEq, Repr

/-- `err.kind` as the 3-bit code of R29 and R110. -/
def Fault.code : Option Fault → BitVec 3
  | none => 0
  | some .stackOverflow => 1
  | some .stackUnderflow => 2
  | some .unknownOpcode => 3
  | some .outOfBoundsAccess => 4
  | some .keyIndexOutOfRange => 5

/-- The error record `err` (R29); `kind` is `none` for code 0. -/
structure ErrRecord where
  kind : Option Fault
  pc : Word
  opcode : Word
  opcodeValid : Bool
  deriving DecidableEq, Repr

/-- FB: 32 rows of 64 pixels, row 0 and column 0 first (R31). -/
abbrev Framebuffer := Vector (Vector Bool 64) 32

/-- The state of the block: the spec's own in the order of the table of 10_state.md, then `started`, which R135
implies, then the model's own fields (logs 1, 2, 3, 8). -/
structure State where
  /-- V0-VF (R20). -/
  v : Vector Byte 16
  /-- I (R22). -/
  idx : Word
  /-- PC (R23). -/
  pc : Word
  /-- Stack[0..15] (R24). -/
  stack : Vector Word Config.stackDepth
  /-- SP, the number of entries, 0..STACK_DEPTH (R24). -/
  sp : Fin (Config.stackDepth + 1)
  /-- DT (R25). -/
  dt : Byte
  /-- ST (R26). -/
  st : Byte
  /-- keyWait (R27). -/
  keyWait : Bool
  /-- halted (R28). -/
  halted : Bool
  /-- err (R29). -/
  err : ErrRecord
  /-- Mem (R30). -/
  mem : Memory
  /-- FB (R31). -/
  fb : Framebuffer
  /-- Keys (R33). -/
  keys : Vector Bool 16
  /-- A STEP has run since RESET: LOAD is accepted only before (R135). Log 6. -/
  started : Bool
  /-- The model's own: how many random bytes were drawn (log 2). -/
  draws : Nat
  /-- The model's own: how many unspecified values were used (log 3). -/
  frees : Nat
  /-- The model's own: the transactions still to be issued, STEPs once it is empty (log 1). -/
  schedule : List Transaction
  /-- The model's own: the parameter FONT of this instance, no state of the block (R12, R36); every transaction keeps
  it, and RESET seeds Mem with it. Log 8. -/
  font : Font
  deriving DecidableEq, Repr

/-- The error record after RESET (R39). -/
def ErrRecord.reset : ErrRecord := { kind := none, pc := 0, opcode := 0, opcodeValid := false }

/-- The state RESET leaves (R39, R130) with the default FONT, which an empty `mem` reads as. The last five fields are
the model's own (logs 8, 13). -/
def State.reset : State where
  v := Vector.replicate 16 0
  idx := 0
  pc := 0x200
  stack := Vector.replicate Config.stackDepth 0
  sp := 0
  dt := 0
  st := 0
  keyWait := false
  halted := false
  err := ErrRecord.reset
  mem := []
  fb := Vector.replicate 32 (Vector.replicate 64 false)
  keys := Vector.replicate 16 false
  started := false
  draws := 0
  frees := 0
  schedule := []
  font := Config.font

end Sys2Proof.Machine
end

