-- ==== Sys2Proof/Machine/Ops.lean ====
section
/-! DEFINITION. The named operations over registers, PC, the call stack, memory, the keypad and the free values, and
raising a fatal error (00_scope.md R17, R18; 10_state.md R20, R24, R33; 20_memory.md R42-R45; 60_exceptions.md
R111). -/

namespace Sys2Proof.Machine

/-- The outcome of a step of this machine. -/
abbrev Result := Host.Outcome State Fault Refusal

/-! ## Registers (R17, R20) -/

/-- `V[x]`. -/
def State.getV (s : State) (x : Reg) : Byte := s.v[x]

/-- `V[x] <- b`. -/
def State.setV (s : State) (x : Reg) (b : Byte) : State := { s with v := s.v.set x b }

/-- `I <- w`. -/
def State.setIdx (s : State) (w : Word) : State := { s with idx := w }

/-- `DT <- b`. -/
def State.setDt (s : State) (b : Byte) : State := { s with dt := b }

/-- `ST <- b`. -/
def State.setSt (s : State) (b : Byte) : State := { s with st := b }

/-- `keyWait <- b`. -/
def State.setKeyWait (s : State) (b : Bool) : State := { s with keyWait := b }

/-- `FB <- f`. -/
def State.setFb (s : State) (f : Framebuffer) : State := { s with fb := f }

/-- `Mem <- m`. -/
def State.setMem (s : State) (m : Memory) : State := { s with mem := m }

/-! ## PC (R18) -/

/-- `PC <- target`. -/
def State.setPc (s : State) (target : Word) : State := { s with pc := target }

/-- `PC <- PC + 2`, the normal advance. -/
def State.advance (s : State) : State := s.setPc (s.pc + 2)

/-- `PC <- PC + 4`, a taken skip; the skipped word is not fetched (R66). -/
def State.skipNext (s : State) : State := s.setPc (s.pc + 4)

/-- A skip: taken or not. -/
def State.skipIf (s : State) (taken : Bool) : State := if taken then s.skipNext else s.advance

/-! ## The call stack (R24) -/

/-- `Stack[SP] <- w; SP <- SP + 1`, with room. -/
def State.push (s : State) (w : Word) (h : s.sp.val < Config.stackDepth) : State :=
  { s with stack := s.stack.set s.sp.val w h, sp := ⟨s.sp.val + 1, Nat.succ_lt_succ h⟩ }

/-- The top entry, `Stack[SP-1]`, of a stack that is not empty. -/
def State.top (s : State) (h : 0 < s.sp.val) : Word :=
  s.stack[s.sp.val - 1]'(Nat.lt_of_lt_of_le (Nat.sub_lt h Nat.one_pos) (Nat.le_of_lt_succ s.sp.isLt))

/-- `SP <- SP - 1`; the popped slot keeps its value (D35, log 12). -/
def State.drop (s : State) : State :=
  { s with sp := ⟨s.sp.val - 1, Nat.lt_of_le_of_lt (Nat.sub_le _ _) s.sp.isLt⟩ }

/-! ## Memory (R42-R45) -/

/-- `MemRead(a, 1)`: OutOfBoundsAccess above 0xFFF. -/
def memRead (a : Nat) (s : State) : Except Fault Byte :=
  if a > 0xFFF then .error .outOfBoundsAccess else .ok (Memory.read s.mem a)

/-- `MemWrite(a, 1, b)`: OutOfBoundsAccess above 0xFFF, without effect. -/
def memWrite (a : Nat) (b : Byte) (s : State) : Except Fault State :=
  if a > 0xFFF then .error .outOfBoundsAccess else .ok (s.setMem (Memory.write s.mem a b))

/-- `n` bytes read in ascending order from `a`; stops at the first invalid address (R49). -/
def readBytes (a : Nat) : Nat → State → Except Fault (List Byte)
  | 0, _ => .ok []
  | n + 1, s =>
    match memRead a s with
    | .error f => .error f
    | .ok b =>
      match readBytes (a + 1) n s with
      | .error f => .error f
      | .ok bs => .ok (b :: bs)

/-- Bytes stored in ascending order from `a`; stops at the first invalid address (R49). -/
def storeBytes (a : Nat) : List Byte → State → Except Fault State
  | [], s => .ok s
  | b :: bs, s =>
    match memWrite a b s with
    | .error f => .error f
    | .ok s' => storeBytes (a + 1) bs s'

/-- How many of `n` addresses from `a` are valid (R42). -/
def validCount (a n : Nat) : Nat := min n (0x1000 - a)

/-- The opcode at PC, big-endian: byte PC, then byte PC + 1 (R45, R48, R60). -/
def fetchWord (s : State) : Except Fault Word :=
  match memRead s.pc.toNat s with
  | .error f => .error f
  | .ok hi =>
    match memRead (s.pc.toNat + 1) s with
    | .error f => .error f
    | .ok lo => .ok (hi ++ lo)

/-! ## Several registers at once (R98, R99) -/

/-- V[0], ..., V[x]. -/
def State.regsUpTo (s : State) (x : Reg) : List Byte := s.v.toList.take (x.val + 1)

/-- Registers from number `k` on take the bytes of a list. -/
def loadFrom (v : Vector Byte 16) (k : Nat) : List Byte → Vector Byte 16
  | [] => v
  | b :: bs => loadFrom (v.setIfInBounds k b) (k + 1) bs

/-- V[0], V[1], ... take the bytes of a list. -/
def State.loadRegs (s : State) (bs : List Byte) : State := { s with v := loadFrom s.v 0 bs }

/-! ## The keypad (R33) -/

/-- `KeyDown(k)`; no key outside 0..15 is down. -/
def keyDown (k : Nat) (s : State) : Bool := if h : k < 16 then s.keys[k] else false

/-- `AnyKey()`: the lowest-numbered key that is down. -/
def anyKey (s : State) : Option Nat := (List.range 16).find? (fun k => keyDown k s)

/-! ## Free values -/

/-- `Rand8()`: the next byte of the random source (R124, log 2). -/
def State.nextRandom (s : State) : Byte := Config.randomByte s.draws

/-- A random byte was taken. -/
def State.countDraw (s : State) : State := { s with draws := s.draws + 1 }

/-- The next `n` unspecified bytes (R111, log 3). -/
def State.freeBytes (s : State) (n : Nat) : List Byte :=
  (List.range n).map (fun k => Config.unspecifiedByte (s.frees + k))

/-- `n` unspecified values were used. -/
def State.countFrees (s : State) (n : Nat) : State := { s with frees := s.frees + n }

/-- The bytes a faulting store of `n` bytes from `a` would have written hold unspecified values (R111, log 3). -/
def State.forgetMem (s : State) (a n : Nat) : State :=
  (s.setMem (Memory.writeBytes s.mem a (s.freeBytes (validCount a n)))).countFrees (validCount a n)

/-- The registers V[0..x] a faulting load would have written hold unspecified values (R111, log 3); a load whose first
address is invalid has written none. -/
def State.forgetRegs (s : State) (a : Nat) (x : Reg) : State :=
  if a > 0xFFF then s else (s.loadRegs (s.freeBytes (x.val + 1))).countFrees (x.val + 1)

/-! ## Fatal errors (R111)

There is no return from one: no handler exists (R113) and only RESET clears `halted` (R112). -/

/-- `halted <- 1` with the error record; PC keeps the instruction's address. -/
def State.halt (s : State) (e : ErrRecord) : State := { s with halted := true, err := e }

/-- `raise f` in an instruction whose word is `op`. -/
def raise (f : Fault) (op : Word) (s : State) : State :=
  s.halt { kind := some f, pc := s.pc, opcode := op, opcodeValid := true }

/-- `raise f` during the fetch: no opcode was formed, so `err.opcode` is unspecified (R29, R48, U10; log 4). -/
def raiseAtFetch (f : Fault) (s : State) : State :=
  (s.halt { kind := some f, pc := s.pc, opcode := Config.unspecifiedWord s.frees, opcodeValid := false }).countFrees 1

/-- Store bytes and advance; a store that meets an invalid address raises, and what it would have written is
unspecified (R97, R98, R111). -/
def storeAndAdvance (op : Word) (a : Nat) (bytes : List Byte) (s : State) : Result :=
  match storeBytes a bytes s with
  | .ok t => .next t.advance
  | .error f => .next (raise f op (s.forgetMem a bytes.length))

end Sys2Proof.Machine
end

