-- ==== Sys2Proof/Machine/Operands.lean ====
section
/-! DEFINITION. The operand forms that are more than a field (30_encoding.md R59): the source of a shift, the base
address of an I-based access, the address of a font glyph, the decimal digits of a byte. -/

namespace Sys2Proof.Machine

/-- What 8XY6 and 8XYE shift: V[Y] when SHIFT_USES_VY, else V[X] (R13, R89, R91). -/
def shiftOperand (usesVY : Bool) (x y : Reg) (s : State) : Byte := if usesVY then s.getV y else s.getV x

/-- The address of byte 0 of an I-based access; byte k lies at this plus k, not wrapped (R44). -/
def indexBase (s : State) : Nat := s.idx.toNat

/-- `V[X] * 5`: the glyph of a digit, FONT_BASE being 0 (R11, R96). -/
def glyphAddress (b : Byte) : Word := BitVec.ofNat 16 (b.toNat * 5)

/-- Hundreds, tens and units of a byte (R97). -/
def decimalDigits (b : Byte) : List Byte :=
  [BitVec.ofNat 8 (b.toNat / 100), BitVec.ofNat 8 (b.toNat / 10 % 10), BitVec.ofNat 8 (b.toNat % 10)]

end Sys2Proof.Machine
end

