-- ==== Sys2Proof/Machine/ControlFlow.lean ====
section
/-! DEFINITION. Return, jump, call, skips and the indexed jump (40_control_flow.md R72-R80). -/

namespace Sys2Proof.Machine

/-- 00EE RET (R72). -/
def execRet (s : State) : Result :=
  if h : 0 < s.sp.val then .next (s.drop.setPc (s.top h))
  else .next (raise .stackUnderflow (encode .ret) s)

/-- 1NNN JP addr (R73). -/
def execJp (nnn : Addr) (s : State) : Result := .next (s.setPc (zextAddr nnn))

/-- 2NNN CALL addr: the return address is the word after the CALL (R74, C1). -/
def execCall (nnn : Addr) (s : State) : Result :=
  if h : s.sp.val < Config.stackDepth then .next ((s.push (s.pc + 2) h).setPc (zextAddr nnn))
  else .next (raise .stackOverflow (encode (.call nnn)) s)

/-- 3XNN SE Vx, byte (R75). -/
def execSeByte (x : Reg) (nn : Byte) (s : State) : Result := .next (s.skipIf (s.getV x == nn))

/-- 4XNN SNE Vx, byte (R76). -/
def execSneByte (x : Reg) (nn : Byte) (s : State) : Result := .next (s.skipIf (s.getV x != nn))

/-- 5XY0 SE Vx, Vy (R77). -/
def execSeReg (x y : Reg) (s : State) : Result := .next (s.skipIf (s.getV x == s.getV y))

/-- 9XY0 SNE Vx, Vy (R78). -/
def execSneReg (x y : Reg) (s : State) : Result := .next (s.skipIf (s.getV x != s.getV y))

/-- BNNN JP V0, addr: no truncation to 12 bits (R79). -/
def execJpV0 (nnn : Addr) (s : State) : Result := .next (s.setPc (zextAddr nnn + zextByte (s.getV 0)))

end Sys2Proof.Machine
end

