-- ==== Sys2Proof/Machine/Flags.lean ====
section
/-! DEFINITION. The values VF takes as a flag (10_state.md R38; 41_register_alu.md R87-R91, R93; 43_display.md
R101). Each is 0 or 1. -/

namespace Sys2Proof.Machine

/-- A flag as the byte VF holds (R38: "Each writes 0 or 1"). -/
def flagByte (b : Bool) : Byte := if b then 1 else 0

/-- The carry of 8XY4: `s > 255` (R87, R93). -/
def carryFlag (a b : Byte) : Byte := flagByte (decide (a.toNat + b.toNat > 255))

/-- The no-borrow of 8XY5 and 8XY7: `minuend >= subtrahend` (R88, R90, R93). -/
def noBorrowFlag (minuend subtrahend : Byte) : Byte := flagByte (decide (minuend.toNat ≥ subtrahend.toNat))

/-- The bit 8XY6 shifts out: `v & 1` (R89). -/
def shiftedOutLow (b : Byte) : Byte := b &&& 1

/-- The bit 8XYE shifts out: `(v >> 7) & 1` (R91). -/
def shiftedOutHigh (b : Byte) : Byte := (b >>> 7) &&& 1

/-- The collision flag of DXYN (R101). -/
def collisionFlag (collided : Bool) : Byte := flagByte collided

end Sys2Proof.Machine
end

