-- ==== Sys2Proof/Machine/Display.lean ====
section
/-! DEFINITION. The framebuffer: clearing it and the XOR sprite renderer with its collision detector (43_display.md
R100-R103). -/

namespace Sys2Proof.Machine

/-- What a draw carries along: the framebuffer, and whether a pixel was turned off so far. -/
abbrev Canvas := Framebuffer × Bool

/-- Every pixel off (R100). -/
def clearedFb : Framebuffer := Vector.replicate 32 (Vector.replicate 64 false)

/-- One sprite bit at column x, row y: clipped outside the frame, XORed inside, with the collision (R101). -/
def drawBit (x y : Nat) (bit : Bool) (c : Canvas) : Canvas :=
  if h : x < 64 ∧ y < 32 then
    (c.1.set y ((c.1[y]'h.2).set x (((c.1[y]'h.2)[x]'h.1) ^^ bit) h.1) h.2, c.2 || (((c.1[y]'h.2)[x]'h.1) && bit))
  else c

/-- The first `n` columns of a sprite row, bit 7 leftmost, in order (R101). -/
def drawColumns (x0 y : Nat) (row : Byte) : Nat → Canvas → Canvas
  | 0, c => c
  | n + 1, c => drawBit (x0 + n) y (row.getLsbD (7 - n)) (drawColumns x0 y row n c)

/-- One row of 8 pixels (R101). -/
def drawRow (x0 y : Nat) (row : Byte) (c : Canvas) : Canvas := drawColumns x0 y row 8 c

/-- The rows of a sprite in order, from row y down (R101). -/
def drawRows (x0 : Nat) : Nat → List Byte → Canvas → Canvas
  | _, [], c => c
  | y, row :: rows, c => drawRows x0 (y + 1) rows (drawRow x0 y row c)

/-- A sprite drawn with its top left corner at (x0, y0) (R101). -/
def drawSprite (x0 y0 : Nat) (rows : List Byte) (s : State) : Canvas := drawRows x0 y0 rows (s.fb, false)

/-- What a faulting draw leaves: VF and the pixels of the rows before the bad one are unspecified (R111, U7; log 3).
XOR with unspecified rows gives those pixels any value. -/
def State.forgetDraw (s : State) (x0 y0 a n : Nat) : State :=
  (((s.setFb (drawSprite x0 y0 (s.freeBytes (validCount a n)) s).1).setV regF
    (Config.unspecifiedByte (s.frees + validCount a n)))).countFrees (validCount a n + 1)

/-- 00E0 CLS (R100). -/
def execCls (s : State) : Result := .next (s.setFb clearedFb).advance

/-- DXYN DRW Vx, Vy, nibble (R101): the coordinates are read before VF is written (D14), every row is read, a clipped
one too (D15). -/
def execDrw (x y : Reg) (n : Nibble) (s : State) : Result :=
  match readBytes (indexBase s) n.toNat s with
  | .ok rows =>
    .next (((s.setFb (drawSprite (s.getV x).toNat (s.getV y).toNat rows s).1).setV regF
      (collisionFlag (drawSprite (s.getV x).toNat (s.getV y).toNat rows s).2))).advance
  | .error f =>
    .next (raise f (encode (.drw x y n))
      (s.forgetDraw (s.getV x).toNat (s.getV y).toNat (indexBase s) n.toNat))

end Sys2Proof.Machine
end

