-- ==== Sys2Proof/Machine/IndexMemory.lean ====
section
/-! DEFINITION. The index register and memory transfer (42_index_memory.md R94-R99). -/

namespace Sys2Proof.Machine

/-- ANNN LD I, addr (R94). -/
def execLdI (nnn : Addr) (s : State) : Result := .next (s.setIdx (zextAddr nnn)).advance

/-- FX1E ADD I, Vx: modulo 65536, no flag (R95). -/
def execAddI (x : Reg) (s : State) : Result := .next (s.setIdx (s.idx + zextByte (s.getV x))).advance

/-- FX29 LD F, Vx: the whole byte V[X] is multiplied (R96). -/
def execLdF (x : Reg) (s : State) : Result := .next (s.setIdx (glyphAddress (s.getV x))).advance

/-- FX33 LD B, Vx (R97). -/
def execLdB (x : Reg) (s : State) : Result :=
  storeAndAdvance (encode (.ldB x)) (indexBase s) (decimalDigits (s.getV x)) s

/-- FX55 LD [I], Vx: V0 through VX, I unchanged (R98). -/
def execStRegs (x : Reg) (s : State) : Result :=
  storeAndAdvance (encode (.stRegs x)) (indexBase s) (s.regsUpTo x) s

/-- FX65 LD Vx, [I]: V0 through VX, I unchanged (R99). -/
def execLdRegs (x : Reg) (s : State) : Result :=
  match readBytes (indexBase s) (x.val + 1) s with
  | .ok bs => .next (s.loadRegs bs).advance
  | .error f => .next (raise f (encode (.ldRegs x)) (s.forgetRegs (indexBase s) x))

end Sys2Proof.Machine
end

