-- ==== Sys2Proof/Machine/KeypadTimer.lean ====
section
/-! DEFINITION. Keypad and timer instructions (44_keypad_timer_ops.md R104-R109). -/

namespace Sys2Proof.Machine

/-- EX9E SKP Vx (R104). -/
def execSkp (x : Reg) (s : State) : Result :=
  if (s.getV x).toNat > 15 then .next (raise .keyIndexOutOfRange (encode (.skp x)) s)
  else .next (s.skipIf (keyDown (s.getV x).toNat s))

/-- EXA1 SKNP Vx (R105). -/
def execSknp (x : Reg) (s : State) : Result :=
  if (s.getV x).toNat > 15 then .next (raise .keyIndexOutOfRange (encode (.sknp x)) s)
  else .next (s.skipIf (!keyDown (s.getV x).toNat s))

/-- FX07 LD Vx, DT (R106). -/
def execLdVxDt (x : Reg) (s : State) : Result := .next (s.setV x s.dt).advance

/-- FX15 LD DT, Vx (R107). -/
def execLdDtVx (x : Reg) (s : State) : Result := .next (s.setDt (s.getV x)).advance

/-- FX18 LD ST, Vx (R108). -/
def execLdStVx (x : Reg) (s : State) : Result := .next (s.setSt (s.getV x)).advance

/-- FX0A LD Vx, K: with no key down PC stays and keyWait is set; else the lowest key is stored (R109, D32). -/
def execLdVxK (x : Reg) (s : State) : Result :=
  match anyKey s with
  | none => .next (s.setKeyWait true)
  | some k => .next ((s.setV x (BitVec.ofNat 8 k)).setKeyWait false).advance

end Sys2Proof.Machine
end

