-- ==== Sys2Proof/Machine/RegisterAlu.lean ====
section
/-! DEFINITION. Register loads, arithmetic and logic, and the random byte (41_register_alu.md R81-R93). -/

namespace Sys2Proof.Machine

/-- `V[x] <- b; PC <- PC + 2`. -/
def writeAndAdvance (x : Reg) (b : Byte) (s : State) : Result := .next (s.setV x b).advance

/-- `V[x] <- b; V[15] <- flag; PC <- PC + 2`: the flag is written last (D13). -/
def writeWithFlag (x : Reg) (b flag : Byte) (s : State) : Result := .next ((s.setV x b).setV regF flag).advance

/-- 6XNN LD Vx, byte (R81). -/
def execLdByte (x : Reg) (nn : Byte) (s : State) : Result := writeAndAdvance x nn s

/-- 7XNN ADD Vx, byte: no flag (R82). -/
def execAddByte (x : Reg) (nn : Byte) (s : State) : Result := writeAndAdvance x (s.getV x + nn) s

/-- 8XY0 LD Vx, Vy (R83). -/
def execLdReg (x y : Reg) (s : State) : Result := writeAndAdvance x (s.getV y) s

/-- 8XY1 OR Vx, Vy (R84). -/
def execOrReg (x y : Reg) (s : State) : Result := writeAndAdvance x (s.getV x ||| s.getV y) s

/-- 8XY2 AND Vx, Vy (R85). -/
def execAndReg (x y : Reg) (s : State) : Result := writeAndAdvance x (s.getV x &&& s.getV y) s

/-- 8XY3 XOR Vx, Vy (R86). -/
def execXorReg (x y : Reg) (s : State) : Result := writeAndAdvance x (s.getV x ^^^ s.getV y) s

/-- 8XY4 ADD Vx, Vy (R87). -/
def execAddReg (x y : Reg) (s : State) : Result :=
  writeWithFlag x (s.getV x + s.getV y) (carryFlag (s.getV x) (s.getV y)) s

/-- 8XY5 SUB Vx, Vy (R88). -/
def execSub (x y : Reg) (s : State) : Result :=
  writeWithFlag x (s.getV x - s.getV y) (noBorrowFlag (s.getV x) (s.getV y)) s

/-- 8XY7 SUBN Vx, Vy (R90). -/
def execSubn (x y : Reg) (s : State) : Result :=
  writeWithFlag x (s.getV y - s.getV x) (noBorrowFlag (s.getV y) (s.getV x)) s

/-- The right shift for either value of SHIFT_USES_VY (R13, R89). -/
def shiftRight (usesVY : Bool) (x y : Reg) (s : State) : Result :=
  writeWithFlag x (shiftOperand usesVY x y s >>> 1) (shiftedOutLow (shiftOperand usesVY x y s)) s

/-- The left shift for either value of SHIFT_USES_VY (R13, R91). -/
def shiftLeft (usesVY : Bool) (x y : Reg) (s : State) : Result :=
  writeWithFlag x (shiftOperand usesVY x y s <<< 1) (shiftedOutHigh (shiftOperand usesVY x y s)) s

/-- 8XY6 SHR Vx (R89). -/
def execShr (x y : Reg) (s : State) : Result := shiftRight Config.shiftUsesVY x y s

/-- 8XYE SHL Vx (R91). -/
def execShl (x y : Reg) (s : State) : Result := shiftLeft Config.shiftUsesVY x y s

/-- CXNN RND Vx, byte: one byte is drawn per execution (R92, R124). -/
def execRnd (x : Reg) (nn : Byte) (s : State) : Result := writeAndAdvance x (s.nextRandom &&& nn) s.countDraw

end Sys2Proof.Machine
end

