-- ==== Sys2Proof/Machine/Transactions.lean ====
section
/-! DEFINITION. The five transactions (00_scope.md R7; 30_encoding.md R60; 60_exceptions.md R120, R123;
70_reset_and_hazards.md R130-R135) and the read ports (10_state.md R34). -/

namespace Sys2Proof.Machine

/-! ## STEP (R60) -/

/-- LOAD is refused from now on (R135). -/
def State.markStarted (s : State) : State := { s with started := true }

/-- Decode and execute a fetched word; a word that matches no pattern raises UnknownOpcode (R60, R64). -/
def runWord (w : Word) (s : State) : Result :=
  match decodeWord w with
  | some i => exec i s
  | none => .next (raise .unknownOpcode w s)

/-- Fetch, decode and execute (R60, R115). -/
def fetchAndRun (s : State) : Result :=
  match fetchWord s with
  | .error f => .next (raiseAtFetch f s)
  | .ok w => runWord w s

/-- `STEP`: no effect while halted (R60, R112). -/
def stepTransaction (s : State) : Result := if s.halted then .next s else fetchAndRun s.markStarted

/-! ## TICK (R120) -/

/-- A timer after one TICK: one less, not below 0. -/
def tickTimer (b : Byte) : Byte := if b = 0 then 0 else b - 1

/-- `TICK`. -/
def tick (s : State) : State := { s with dt := tickTimer s.dt, st := tickTimer s.st }

/-! ## SET_KEY (R123) -/

/-- `SET_KEY(k, b)`: refused outside 0..15. -/
def setKey (k : Nat) (pressed : Bool) (s : State) : Response × State :=
  if h : k < 16 then (.ok, { s with keys := s.keys.set k pressed h }) else (.refused, s)

/-! ## LOAD (R132, R133, R135) -/

/-- `LOAD(bytes)`: refused after the first STEP; RomTooLarge when the image does not fit (log 7). -/
def load (bytes : List Byte) (s : State) : Response × State :=
  if s.started then (.refused, s)
  else if Config.programBase + bytes.length > 0x1000 then (.romTooLarge, s)
  else (.ok, s.setMem (Memory.writeBytes s.mem Config.programBase bytes))

/-! ## RESET (R130) -/

/-- The state RESET leaves with the parameter `font` (R12, R39). -/
def State.resetWith (font : Font) : State := { State.reset with mem := Memory.seeded font, font := font }

/-- `RESET`, in any state; the font is the instance's parameter, the random source, the
unspecified values and the schedule are not the block's (log 13). -/
def resetTransaction (s : State) : State :=
  { State.resetWith s.font with draws := s.draws, frees := s.frees, schedule := s.schedule }

/-! ## The transaction that runs next (R7, R8) -/

/-- One transaction. -/
def transact (t : Transaction) (s : State) : Result :=
  match t with
  | .step => stepTransaction s
  | .tick => .next (tick s)
  | .setKey k pressed => .next (setKey k pressed s).2
  | .load bytes => .next (load bytes s).2
  | .reset => .next (resetTransaction s)

/-- What a transaction answers its issuer. -/
def respond (t : Transaction) (s : State) : Response :=
  match t with
  | .step => .ok
  | .tick => .ok
  | .setKey k pressed => (setKey k pressed s).1
  | .load bytes => (load bytes s).1
  | .reset => .ok

/-- The head of the schedule runs; once it is empty, STEP runs (log 1). -/
def runNext (s : State) : Result :=
  match s.schedule with
  | [] => stepTransaction s
  | t :: rest => transact t { s with schedule := rest }

/-! ## Read ports (R34) -/

/-- `pixel(x, y)`. -/
def pixel (s : State) (x : Fin 64) (y : Fin 32) : Bool := s.fb[y][x]

/-- `status`: halted, keyWait and, when halted, err. -/
def statusPort (s : State) : Bool × Bool × Option ErrRecord :=
  (s.halted, s.keyWait, if s.halted then some s.err else none)

/-- `dt`. -/
def dtPort (s : State) : Byte := s.dt

/-- `st`. -/
def stPort (s : State) : Byte := s.st

/-- `sound_on = (ST != 0)` (R122). -/
def soundOn (s : State) : Bool := s.st != 0

/-! ## Placing a word where the next STEP fetches it (log 14) -/

/-- A schedule whose next transaction is a STEP. -/
def stepFirst : List Transaction → List Transaction
  | [] => []
  | .step :: rest => .step :: rest
  | .tick :: rest => .step :: .tick :: rest
  | .setKey k b :: rest => .step :: .setKey k b :: rest
  | .load bytes :: rest => .step :: .load bytes :: rest
  | .reset :: rest => .step :: .reset :: rest

/-- PC if a word can be fetched there, else the program's base. -/
def fetchablePc (pc : Word) : Word := if pc.toNat + 1 ≤ 0xFFF then pc else BitVec.ofNat 16 Config.programBase

/-- The word stands at PC, high byte first; the block is not halted and a STEP runs next. -/
def placeWord (w : Word) (s : State) : State :=
  { s with
    pc := fetchablePc s.pc
    halted := false
    mem := Memory.writeBytes s.mem (fetchablePc s.pc).toNat [highByte w, lowByte w]
    schedule := stepFirst s.schedule }

end Sys2Proof.Machine
end

