-- ==== Sys2Proof/Machine/Step.lean ====
section
/-! DEFINITION. One step of the machine: the transaction that runs next (00_scope.md R7, R8; log 1). -/

namespace Sys2Proof.Machine

/-- One step: the head of the schedule, STEP once it is empty. -/
def step (s : State) : Host.Outcome State Fault Refusal := runNext s

/-- The instruction whose bits are `w` (numbered as opcode_table.json numbers them) stored where the next STEP
fetches it (log 14). -/
def State.withFetchWord (s : State) (nbits w : Nat) : State := placeWord (BitVec.ofNat 16 (w % 2 ^ nbits)) s

end Sys2Proof.Machine
end

