-- ==== Sys2Proof/Safety.lean ====
section
/-! DEFINITION. The terms claims are stated in: what an instruction leaves unchanged, what a fatal error leaves, when
the next transaction is a STEP, the invariant of every reachable state (10_state.md R40), the reachable states, and
a safe run (60_exceptions.md R112: "A halted block is a faulted state"). -/

namespace Sys2Proof.Machine

/-! ## Frames -/

/-- The parts of the state an instruction may change beside PC and the registers V0-VF. -/
inductive Part where
  | idx
  | stack
  | dt
  | st
  | keyWait
  | fault
  | mem
  | fb
  | draws
  | frees
  deriving DecidableEq, Repr

/-- Everything but PC, the registers in `written` and the parts listed is as before: each register, I, the call stack,
the timers, keyWait, halted and err, every byte of memory, every pixel, every key, and the model's own fields. -/
structure Frame (parts : List Part) (written : Reg → Prop) (s t : State) : Prop where
  regs : ∀ r, ¬ written r → t.getV r = s.getV r
  idx : Part.idx ∉ parts → t.idx = s.idx
  stack : Part.stack ∉ parts → t.stack = s.stack ∧ t.sp = s.sp
  dt : Part.dt ∉ parts → t.dt = s.dt
  st : Part.st ∉ parts → t.st = s.st
  keyWait : Part.keyWait ∉ parts → t.keyWait = s.keyWait
  fault : Part.fault ∉ parts → t.halted = s.halted ∧ t.err = s.err
  mem : Part.mem ∉ parts → ∀ a, Memory.read t.mem a = Memory.read s.mem a
  fb : Part.fb ∉ parts → ∀ x y, pixel t x y = pixel s x y
  keys : ∀ k, keyDown k t = keyDown k s
  draws : Part.draws ∉ parts → t.draws = s.draws
  frees : Part.frees ∉ parts → t.frees = s.frees
  started : t.started = s.started
  schedule : t.schedule = s.schedule
  font : t.font = s.font

/-- No register. -/
def noReg : Reg → Prop := fun _ => False

/-- What raising `f` in the instruction with word `op` leaves: halted, the error record, and PC at the instruction
(R111). -/
def Faulted (f : Fault) (op : Word) (s t : State) : Prop :=
  t.halted = true ∧ t.err = { kind := some f, pc := s.pc, opcode := op, opcodeValid := true } ∧ t.pc = s.pc

/-! ## The next transaction -/

/-- The next transaction of `s` is a STEP, and it runs on `u`: the schedule is empty, or a STEP is its head. -/
def StepDue (s u : State) : Prop :=
  (s.schedule = [] ∧ u = s) ∨ (∃ rest, s.schedule = .step :: rest ∧ u = { s with schedule := rest })

/-- The next transaction of `s` is `t`, and it runs on `u`. -/
def TransactionDue (t : Transaction) (s u : State) : Prop :=
  (t = .step ∧ s.schedule = [] ∧ u = s) ∨ (∃ rest, s.schedule = t :: rest ∧ u = { s with schedule := rest })

/-! ## The invariant -/

/-- Slot `k` of the call stack, below SP. -/
def entry (s : State) (k : Nat) (h : k < s.sp.val) : Word :=
  s.stack[k]'(Nat.lt_of_lt_of_le h (Nat.le_of_lt_succ s.sp.isLt))

/-- What holds of every reachable state (R40, with the bounds of R23 and R74 and what R28, R29, R111 and R135 say of
the status). The widths of R40 hold by the types of State. -/
structure State.Inv (s : State) : Prop where
  /-- Mem is in its canonical form, so it holds 4096 bytes at 0x000-0xFFF and nothing else. -/
  memCanonical : Memory.wf s.mem = true
  /-- "Reachable values never exceed 0x10FE" (R23). -/
  pcBound : s.pc.toNat ≤ 0x10FE
  /-- A return address is "at most 0x1000" (R74). -/
  returnBound : ∀ k (h : k < s.sp.val), (entry s k h).toNat ≤ 0x1000
  /-- keyWait = 1 implies halted = 0 and an FX0A at PC (R40). -/
  waiting : s.keyWait = true → s.halted = false ∧
    ∃ x, decodeWord (wordOfBytes (Memory.read s.mem s.pc.toNat) (Memory.read s.mem (s.pc.toNat + 1))) =
      some (.ldVxK x) ∧ s.pc.toNat + 1 ≤ 0xFFF
  /-- Only a STEP enters the key wait, so one has run (R27, R135). -/
  waitingStarted : s.keyWait = true → s.started = true
  /-- halted comes with an error at PC (R28, R29, R111), after a STEP. -/
  haltedError : s.halted = true → s.err.kind ≠ none ∧ s.err.pc = s.pc ∧ s.started = true
  /-- Without an error the record is as RESET left it. -/
  runningError : s.halted = false → s.err = ErrRecord.reset

/-! ## Runs -/

/-- The states some schedule leads to from RESET with some FONT (R8: every interleaving; R12: every parameter). -/
inductive Reachable : State → Prop where
  | reset (font : Font) (schedule : List Transaction) : Reachable { State.resetWith font with schedule := schedule }
  | afterStep {s t : State} : Reachable s → step s = .next t → Reachable t

/-- A safe run: `n` transactions end in a state that is not halted (R112). -/
def SafeRun (n : Nat) (s : State) : Prop := ∃ t, Host.Core.run core n s = .next t ∧ t.halted = false

end Sys2Proof.Machine
end

