-- ==== Sys2Proof/Certificates/Slice0/Obligations.lean ====
section
/-! DEFINITION. The statements for the provers. "Log <n>" is notes/assumptions/<n>.md. -/

open Sys2Proof Sys2Proof.Machine

/-! ## Encoding (30_encoding.md) -/

/-- Decoding the bytes of any instruction, whatever follows, gives it back and consumes exactly its 2 bytes. -/
def Obligations.DecodeOfEncodeGivesInstructionBack : Prop :=
  ∀ (i : Instr) (rest : List Byte), decode (encodeBytes i ++ rest) = .ok (i, rest)

/-- A word that decodes is the encoding of what it decodes to: no bit of it is dropped, so the word a fault records
(`encode i` in the meanings) is the word that was fetched. -/
def Obligations.EncodeOfDecodedWordGivesWordBack : Prop :=
  ∀ (w : Word) (i : Instr), decodeWord w = some i → encode i = w

/-- The words that match no pattern are exactly those R63 lists. -/
def Obligations.UndecodedWordsAreExactlyTheListed : Prop :=
  ∀ w : Word, decodeWord w = none ↔
    ((nib3 w = 0x5 ∨ nib3 w = 0x9) ∧ nib0 w ≠ 0) ∨
    (nib3 w = 0x8 ∧ (nib0 w = 0x8 ∨ nib0 w = 0x9 ∨ nib0 w = 0xA ∨ nib0 w = 0xB ∨ nib0 w = 0xC ∨ nib0 w = 0xD ∨
      nib0 w = 0xF)) ∨
    (nib3 w = 0xE ∧ ¬ (fieldNN w = 0x9E ∨ fieldNN w = 0xA1)) ∨
    (nib3 w = 0xF ∧ ¬ (fieldNN w = 0x07 ∨ fieldNN w = 0x0A ∨ fieldNN w = 0x15 ∨ fieldNN w = 0x18 ∨
      fieldNN w = 0x1E ∨ fieldNN w = 0x29 ∨ fieldNN w = 0x33 ∨ fieldNN w = 0x55 ∨ fieldNN w = 0x65)) ∨
    (nib3 w = 0x0 ∧ w ≠ 0x00E0 ∧ w ≠ 0x00EE)

/-- A word belongs to a row of opcode_table.json exactly when it decodes to an instruction of that row; hence no word
belongs to two rows (R62). -/
def Obligations.DecodingIsSelectedByTheTableRow : Prop :=
  ∀ (w : Word) (j : Instr),
    (tableRow j).selects w = true ↔ ∃ i, decodeWord w = some i ∧ tableRow i = tableRow j

/-- Words written out bit by bit from the encodings of the spec, one of each family, and illegal ones. -/
def Obligations.WordsWrittenOutDecode : Prop :=
  decodeWord 0b0000000011100000 = some .cls ∧
  decodeWord 0b0001101010111100 = some (.jp 0xABC) ∧
  decodeWord 0b0011001101000010 = some (.seByte 3 0x42) ∧
  decodeWord 0b1000000100110101 = some (.sub 1 3) ∧
  decodeWord 0b1101101010110101 = some (.drw 10 11 5) ∧
  decodeWord 0b1110010110011110 = some (.skp 5) ∧
  decodeWord 0b1111001001010101 = some (.stRegs 2) ∧
  decodeWord 0b0101000100100001 = none ∧
  decodeWord 0b0000000100100011 = none

/-! ## STEP (30_encoding.md R60, 60_exceptions.md) -/

/-- A STEP of a block that is not halted runs the instruction the two bytes at PC decode to; the step adds only that
a STEP has now run (`started`, the model's field for R135, log 6). -/
def Obligations.StepRunsDecodedInstruction : Prop :=
  ∀ (s u : State) (i : Instr), StepDue s u → u.halted = false → u.pc.toNat + 1 ≤ 0xFFF →
    decodeWord (wordOfBytes (Memory.read u.mem u.pc.toNat) (Memory.read u.mem (u.pc.toNat + 1))) = some i →
    step s = exec i { u with started := true }

/-- With PC = 0xFFF or above, the fetch raises OutOfBoundsAccess without an opcode; what err.opcode holds is free. -/
def Obligations.FetchOutsideMemoryFaults : Prop :=
  ∀ (s u : State), StepDue s u → u.halted = false → 0xFFF ≤ u.pc.toNat →
    ∃ t, step s = .next t ∧ t.halted = true ∧ t.err.kind = some .outOfBoundsAccess ∧ t.err.pc = u.pc ∧
      t.err.opcodeValid = false ∧ t.pc = u.pc ∧ Frame [.fault, .frees] noReg { u with started := true } t

/-- A fetched word that matches no pattern raises UnknownOpcode before any other state changes. -/
def Obligations.IllegalWordFaults : Prop :=
  ∀ (s u : State) (w : Word), StepDue s u → u.halted = false → u.pc.toNat + 1 ≤ 0xFFF →
    w = wordOfBytes (Memory.read u.mem u.pc.toNat) (Memory.read u.mem (u.pc.toNat + 1)) → decodeWord w = none →
    ∃ t, step s = .next t ∧ Faulted .unknownOpcode w u t ∧ Frame [.fault] noReg { u with started := true } t

/-- While halted a STEP changes nothing, and no transaction but RESET clears `halted`. -/
def Obligations.HaltedBlockStaysHalted : Prop :=
  (∀ s u : State, StepDue s u → u.halted = true → step s = .next u) ∧
  (∀ (s u t : State) (tr : Transaction), TransactionDue tr s u → s.halted = true → step s = .next t → tr ≠ .reset →
    t.halted = true ∧ t.err = s.err ∧ t.pc = s.pc)

/-- Every step of every state answers a next state: a fatal error is a halted state, not a stop of the model (log 5). -/
def Obligations.EveryStepAnswersANextState : Prop :=
  (∀ (i : Instr) (s : State), ∃ t, exec i s = .next t) ∧ (∀ s : State, ∃ t, step s = .next t)

/-! ## TICK, SET_KEY, LOAD, RESET -/

/-- TICK takes one from each timer that is not zero, whatever `halted` and `keyWait` are, and changes nothing else. -/
def Obligations.TickDecrementsTimers : Prop :=
  ∀ s u : State, TransactionDue .tick s u →
    ∃ t, step s = .next t ∧ t.dt.toNat = u.dt.toNat - 1 ∧ t.st.toNat = u.st.toNat - 1 ∧
      t = { u with dt := t.dt, st := t.st }

/-- After n TICKs a timer has gone down by n and stopped at 0; further TICKs leave it there. -/
def Obligations.TicksCountDownToZero : Prop :=
  ∀ (n : Nat) (s : State) (rest : List Transaction),
    ∃ t, Host.Core.run core n { s with schedule := List.replicate n .tick ++ rest } = .next t ∧
      t.dt.toNat = s.dt.toNat - n ∧ t.st.toNat = s.st.toNat - n ∧
      t = { s with schedule := rest, dt := t.dt, st := t.st }

/-- SET_KEY(k, b) with k in 0..15 writes key k and nothing else, in every state; with k above it is refused; no other
transaction but RESET changes a key. -/
def Obligations.SetKeyWritesOneKey : Prop :=
  (∀ (k : Nat) (b : Bool) (s u : State), TransactionDue (.setKey k b) s u →
    ∃ t, step s = .next t ∧ t = { u with keys := t.keys } ∧
      (k ≤ 15 → respond (.setKey k b) u = .ok ∧
        ∀ j, keyDown j t = if j = k then b else keyDown j u) ∧
      (15 < k → respond (.setKey k b) u = .refused ∧ t = u)) ∧
  (∀ (tr : Transaction) (s u t : State), TransactionDue tr s u → (∀ k b, tr ≠ .setKey k b) → tr ≠ .reset →
    step s = .next t → t.keys = u.keys)

/-- LOAD before the first STEP: the bytes stand verbatim from 0x200 on and the rest of Mem is untouched, or RomTooLarge
is answered and no state changes. -/
def Obligations.LoadCopiesTheProgram : Prop :=
  ∀ (bytes : List Byte) (s u : State), TransactionDue (.load bytes) s u → u.started = false →
    Memory.wf u.mem = true →
    ∃ t, step s = .next t ∧
      (0x200 + bytes.length > 0x1000 → respond (.load bytes) u = .romTooLarge ∧ t = u) ∧
      (0x200 + bytes.length ≤ 0x1000 → respond (.load bytes) u = .ok ∧ t = { u with mem := t.mem } ∧
        Memory.wf t.mem = true ∧
        (∀ k (h : k < bytes.length), Memory.read t.mem (0x200 + k) = bytes[k]) ∧
        (∀ a, a < 0x200 ∨ 0x200 + bytes.length ≤ a → Memory.read t.mem a = Memory.read u.mem a))

/-- A LOAD after a STEP is refused and changes nothing; every STEP of a block that is not halted closes the door; TICK,
SET_KEY and LOAD leave it as it is and RESET opens it (that TICK and SET_KEY do not close it is the model's choice,
log 7). -/
def Obligations.LoadOnlyBeforeTheFirstStep : Prop :=
  (∀ (bytes : List Byte) (s u : State), TransactionDue (.load bytes) s u → u.started = true →
    step s = .next u ∧ respond (.load bytes) u = .refused) ∧
  (∀ s u t : State, StepDue s u → u.halted = false → step s = .next t → t.started = true) ∧
  (∀ (tr : Transaction) (s u t : State), TransactionDue tr s u → tr ≠ .step → tr ≠ .reset → step s = .next t →
    t.started = u.started) ∧
  (∀ s u t : State, TransactionDue .reset s u → step s = .next t → t.started = false)

/-- What R39 says each piece of state holds after RESET with the parameter `font`. -/
def ResetValues (font : Font) (t : State) : Prop :=
  (∀ (d : Fin 16) (k : Fin 5), Memory.read t.mem (5 * d.val + k.val) = font[5 * d.val + k.val]'(by omega)) ∧
  (∀ a, 0x050 ≤ a → a ≤ 0xFFF → Memory.read t.mem a = 0) ∧
  (∀ r, t.getV r = 0) ∧ t.idx = 0x0000 ∧ t.pc = 0x0200 ∧ t.sp.val = 0 ∧
  (∀ k : Fin 16, t.stack[k] = 0) ∧ t.dt = 0 ∧ t.st = 0 ∧ (∀ x y, pixel t x y = false) ∧
  (∀ k, keyDown k t = false) ∧ t.keyWait = false ∧ t.halted = false ∧
  t.err = { kind := none, pc := 0x0000, opcode := 0x0000, opcodeValid := false }

/-- With any FONT the state after reset holds the values of R39; so does the package's reset state with `Config.font`,
whose bytes are the default of R32 (log 8). -/
def Obligations.ResetStateHoldsTheResetValues : Prop :=
  (∀ font : Font, ResetValues font (State.resetWith font)) ∧ ResetValues Config.font State.reset

/-- RESET gives those values, with the instance's FONT, in any state, halted or not; no state of the block survives
it. -/
def Obligations.ResetTransactionGivesTheResetValues : Prop :=
  ∀ s u : State, TransactionDue .reset s u →
    ∃ t, step s = .next t ∧ ResetValues u.font t ∧
      t = { State.resetWith u.font with draws := u.draws, frees := u.frees, schedule := u.schedule }

/-! ## Control flow (40_control_flow.md) -/

/-- 00EE RET. -/
def Obligations.ReturnPopsOrUnderflows : Prop :=
  decodeWord 0x00EE = some .ret ∧
  (∀ (s : State) (h : 0 < s.sp.val),
    ∃ t, exec .ret s = .next t ∧ t.sp.val = s.sp.val - 1 ∧
      t.pc = entry s (s.sp.val - 1) (Nat.sub_lt h Nat.one_pos) ∧
      (∀ k (ht : k < t.sp.val) (hs : k < s.sp.val), entry t k ht = entry s k hs) ∧ Frame [.stack] noReg s t) ∧
  (∀ s : State, s.sp.val = 0 →
    ∃ t, exec .ret s = .next t ∧ Faulted .stackUnderflow 0x00EE s t ∧ Frame [.fault] noReg s t)

/-- 1NNN JP addr. -/
def Obligations.JumpSetsPc : Prop :=
  (∀ w : Word, nib3 w = 0x1 → decodeWord w = some (.jp (fieldNNN w))) ∧
  (∀ (nnn : Addr) (s : State),
    ∃ t, exec (.jp nnn) s = .next t ∧ t.pc.toNat = nnn.toNat ∧ Frame [] noReg s t)

/-- 2NNN CALL addr. -/
def Obligations.CallPushesOrOverflows : Prop :=
  (∀ w : Word, nib3 w = 0x2 → decodeWord w = some (.call (fieldNNN w))) ∧
  (∀ (nnn : Addr) (s : State), s.sp.val < 16 →
    ∃ t, exec (.call nnn) s = .next t ∧ t.pc.toNat = nnn.toNat ∧ t.sp.val = s.sp.val + 1 ∧
      (∀ k : Fin 16, t.stack[k] = if k.val = s.sp.val then s.pc + 2 else s.stack[k]) ∧ Frame [.stack] noReg s t) ∧
  (∀ (nnn : Addr) (s : State), s.sp.val = 16 →
    ∃ t, exec (.call nnn) s = .next t ∧ Faulted .stackOverflow (formatA 0x2 nnn) s t ∧ Frame [.fault] noReg s t)

/-- A RET run where the matching CALL led returns to the word after the CALL with the stack depth as before. -/
def Obligations.CallThenReturnComesBack : Prop :=
  ∀ (nnn : Addr) (s : State), s.sp.val < 16 →
    ∃ t u, exec (.call nnn) s = .next t ∧ exec .ret t = .next u ∧ u.pc = s.pc + 2 ∧ u.sp = s.sp ∧
      (∀ k (h : k < s.sp.val) (h' : k < u.sp.val), entry u k h' = entry s k h)

/-- 3XNN SE Vx, byte and 4XNN SNE Vx, byte. -/
def Obligations.SkipsOnImmediate : Prop :=
  (∀ w : Word, nib3 w = 0x3 → decodeWord w = some (.seByte (fieldX w) (fieldNN w))) ∧
  (∀ w : Word, nib3 w = 0x4 → decodeWord w = some (.sneByte (fieldX w) (fieldNN w))) ∧
  (∀ (x : Reg) (nn : Byte) (s : State),
    ∃ t, exec (.seByte x nn) s = .next t ∧ t.pc = (if s.getV x = nn then s.pc + 4 else s.pc + 2) ∧
      Frame [] noReg s t) ∧
  (∀ (x : Reg) (nn : Byte) (s : State),
    ∃ t, exec (.sneByte x nn) s = .next t ∧ t.pc = (if s.getV x ≠ nn then s.pc + 4 else s.pc + 2) ∧
      Frame [] noReg s t)

/-- 5XY0 SE Vx, Vy and 9XY0 SNE Vx, Vy. -/
def Obligations.SkipsOnRegisters : Prop :=
  (∀ w : Word, nib3 w = 0x5 → nib0 w = 0 → decodeWord w = some (.seReg (fieldX w) (fieldY w))) ∧
  (∀ w : Word, nib3 w = 0x9 → nib0 w = 0 → decodeWord w = some (.sneReg (fieldX w) (fieldY w))) ∧
  (∀ w : Word, nib3 w = 0x5 ∨ nib3 w = 0x9 → nib0 w ≠ 0 → decodeWord w = none) ∧
  (∀ (x y : Reg) (s : State),
    ∃ t, exec (.seReg x y) s = .next t ∧ t.pc = (if s.getV x = s.getV y then s.pc + 4 else s.pc + 2) ∧
      Frame [] noReg s t) ∧
  (∀ (x y : Reg) (s : State),
    ∃ t, exec (.sneReg x y) s = .next t ∧ t.pc = (if s.getV x ≠ s.getV y then s.pc + 4 else s.pc + 2) ∧
      Frame [] noReg s t)

/-- BNNN JP V0, addr: the plain sum, not cut to 12 bits, always with V0. -/
def Obligations.IndexedJumpAddsV0 : Prop :=
  (∀ w : Word, nib3 w = 0xB → decodeWord w = some (.jpV0 (fieldNNN w))) ∧
  (∀ (nnn : Addr) (s : State),
    ∃ t, exec (.jpV0 nnn) s = .next t ∧ t.pc.toNat = nnn.toNat + (s.getV 0).toNat ∧ Frame [] noReg s t)

/-! ## Registers and ALU (41_register_alu.md) -/

/-- 6XNN LD Vx, byte and 7XNN ADD Vx, byte; the addition writes no flag. -/
def Obligations.ImmediateLoadAndAdd : Prop :=
  (∀ w : Word, nib3 w = 0x6 → decodeWord w = some (.ldByte (fieldX w) (fieldNN w))) ∧
  (∀ w : Word, nib3 w = 0x7 → decodeWord w = some (.addByte (fieldX w) (fieldNN w))) ∧
  (∀ (x : Reg) (nn : Byte) (s : State),
    ∃ t, exec (.ldByte x nn) s = .next t ∧ t.getV x = nn ∧ t.pc = s.pc + 2 ∧ Frame [] (· = x) s t) ∧
  (∀ (x : Reg) (nn : Byte) (s : State),
    ∃ t, exec (.addByte x nn) s = .next t ∧ (t.getV x).toNat = ((s.getV x).toNat + nn.toNat) % 256 ∧
      t.pc = s.pc + 2 ∧ Frame [] (· = x) s t)

/-- 8XY0 LD, 8XY1 OR, 8XY2 AND, 8XY3 XOR: the bits of the result; VF is written only as the destination. -/
def Obligations.CopyAndLogic : Prop :=
  (∀ w : Word, nib3 w = 0x8 → nib0 w = 0x0 → decodeWord w = some (.ldReg (fieldX w) (fieldY w))) ∧
  (∀ w : Word, nib3 w = 0x8 → nib0 w = 0x1 → decodeWord w = some (.orReg (fieldX w) (fieldY w))) ∧
  (∀ w : Word, nib3 w = 0x8 → nib0 w = 0x2 → decodeWord w = some (.andReg (fieldX w) (fieldY w))) ∧
  (∀ w : Word, nib3 w = 0x8 → nib0 w = 0x3 → decodeWord w = some (.xorReg (fieldX w) (fieldY w))) ∧
  (∀ (x y : Reg) (s : State),
    (∃ t, exec (.ldReg x y) s = .next t ∧ t.getV x = s.getV y ∧ t.pc = s.pc + 2 ∧ Frame [] (· = x) s t) ∧
    (∃ t, exec (.orReg x y) s = .next t ∧
      (∀ k, (t.getV x).getLsbD k = ((s.getV x).getLsbD k || (s.getV y).getLsbD k)) ∧
      t.pc = s.pc + 2 ∧ Frame [] (· = x) s t) ∧
    (∃ t, exec (.andReg x y) s = .next t ∧
      (∀ k, (t.getV x).getLsbD k = ((s.getV x).getLsbD k && (s.getV y).getLsbD k)) ∧
      t.pc = s.pc + 2 ∧ Frame [] (· = x) s t) ∧
    (∃ t, exec (.xorReg x y) s = .next t ∧
      (∀ k, (t.getV x).getLsbD k = ((s.getV x).getLsbD k ^^ (s.getV y).getLsbD k)) ∧
      t.pc = s.pc + 2 ∧ Frame [] (· = x) s t))

/-- What an instruction with a result and a flag leaves: VF holds the flag, V[X] the result unless X = F, when the
result is lost (D13); nothing else changes but PC. -/
def ResultAndFlag (x : Reg) (result flag : Nat) (s t : State) : Prop :=
  (t.getV regF).toNat = flag ∧ (x ≠ regF → (t.getV x).toNat = result) ∧ t.pc = s.pc + 2 ∧
    Frame [] (fun r => r = x ∨ r = regF) s t

/-- 8XY4 ADD Vx, Vy. -/
def Obligations.AddSetsCarry : Prop :=
  (∀ w : Word, nib3 w = 0x8 → nib0 w = 0x4 → decodeWord w = some (.addReg (fieldX w) (fieldY w))) ∧
  (∀ (x y : Reg) (s : State),
    ∃ t, exec (.addReg x y) s = .next t ∧
      ResultAndFlag x (((s.getV x).toNat + (s.getV y).toNat) % 256)
        (if (s.getV x).toNat + (s.getV y).toNat > 255 then 1 else 0) s t)

/-- 8XY5 SUB Vx, Vy and 8XY7 SUBN Vx, Vy: VF is NOT borrow. -/
def Obligations.SubtractionsSetNoBorrow : Prop :=
  (∀ w : Word, nib3 w = 0x8 → nib0 w = 0x5 → decodeWord w = some (.sub (fieldX w) (fieldY w))) ∧
  (∀ w : Word, nib3 w = 0x8 → nib0 w = 0x7 → decodeWord w = some (.subn (fieldX w) (fieldY w))) ∧
  (∀ (x y : Reg) (s : State),
    (∃ t, exec (.sub x y) s = .next t ∧
      ResultAndFlag x (((s.getV x).toNat + 256 - (s.getV y).toNat) % 256)
        (if (s.getV x).toNat ≥ (s.getV y).toNat then 1 else 0) s t) ∧
    (∃ t, exec (.subn x y) s = .next t ∧
      ResultAndFlag x (((s.getV y).toNat + 256 - (s.getV x).toNat) % 256)
        (if (s.getV y).toNat ≥ (s.getV x).toNat then 1 else 0) s t))

/-- 8XY6 SHR Vx and 8XYE SHL Vx: V[X] is shifted in place and VF is the bit shifted out; Y is not read. -/
def Obligations.ShiftsGiveTheBitShiftedOut : Prop :=
  (∀ w : Word, nib3 w = 0x8 → nib0 w = 0x6 → decodeWord w = some (.shr (fieldX w) (fieldY w))) ∧
  (∀ w : Word, nib3 w = 0x8 → nib0 w = 0xE → decodeWord w = some (.shl (fieldX w) (fieldY w))) ∧
  (∀ (x y : Reg) (s : State),
    (∃ t, exec (.shr x y) s = .next t ∧
      ResultAndFlag x ((s.getV x).toNat / 2) ((s.getV x).toNat % 2) s t) ∧
    (∃ t, exec (.shl x y) s = .next t ∧
      ResultAndFlag x ((s.getV x).toNat * 2 % 256) ((s.getV x).toNat / 128) s t))

/-- SHIFT_USES_VY (R13): with it set the shifts take V[Y]; this hardware has it clear. -/
def Obligations.ShiftParameterSelectsTheSource : Prop :=
  Config.shiftUsesVY = false ∧
  (∀ (x y : Reg) (s : State),
    (∃ t, shiftRight true x y s = .next t ∧ ResultAndFlag x ((s.getV y).toNat / 2) ((s.getV y).toNat % 2) s t) ∧
    (∃ t, shiftLeft true x y s = .next t ∧
      ResultAndFlag x ((s.getV y).toNat * 2 % 256) ((s.getV y).toNat / 128) s t)) ∧
  (∀ (x y z : Reg) (s : State), exec (.shr x y) s = exec (.shr x z) s ∧ exec (.shl x y) s = exec (.shl x z) s)

/-- CXNN RND Vx, byte: a free byte, masked; one byte is drawn per execution, also when NN = 0. That the draw is the
opaque `Config.randomByte` at the count of draws is the model's form of a free draw (log 2): the statement holds for
every value of it. -/
def Obligations.RandomByteIsMasked : Prop :=
  (∀ w : Word, nib3 w = 0xC → decodeWord w = some (.rnd (fieldX w) (fieldNN w))) ∧
  (∀ (x : Reg) (nn : Byte) (s : State),
    ∃ t r, exec (.rnd x nn) s = .next t ∧ r = Config.randomByte s.draws ∧ t.getV x = r &&& nn ∧
      (nn = 0 → t.getV x = 0) ∧ t.draws = s.draws + 1 ∧ t.pc = s.pc + 2 ∧ Frame [.draws] (· = x) s t)

/-! ## Index register and memory (42_index_memory.md) -/

/-- ANNN LD I, addr; FX1E ADD I, Vx; FX29 LD F, Vx: I is computed, Mem is not touched, VF is not changed. -/
def Obligations.IndexRegisterLoads : Prop :=
  (∀ w : Word, nib3 w = 0xA → decodeWord w = some (.ldI (fieldNNN w))) ∧
  (∀ w : Word, nib3 w = 0xF → fieldNN w = 0x1E → decodeWord w = some (.addI (fieldX w))) ∧
  (∀ w : Word, nib3 w = 0xF → fieldNN w = 0x29 → decodeWord w = some (.ldF (fieldX w))) ∧
  (∀ (nnn : Addr) (s : State),
    ∃ t, exec (.ldI nnn) s = .next t ∧ t.idx.toNat = nnn.toNat ∧ t.pc = s.pc + 2 ∧ Frame [.idx] noReg s t) ∧
  (∀ (x : Reg) (s : State),
    ∃ t, exec (.addI x) s = .next t ∧ t.idx.toNat = (s.idx.toNat + (s.getV x).toNat) % 65536 ∧ t.pc = s.pc + 2 ∧
      Frame [.idx] noReg s t) ∧
  (∀ (x : Reg) (s : State),
    ∃ t, exec (.ldF x) s = .next t ∧ t.idx.toNat = (s.getV x).toNat * 5 ∧ t.pc = s.pc + 2 ∧
      Frame [.idx] noReg s t)

/-- Every byte outside the `n` bytes at `a` reads as before. -/
def OtherBytesUnchanged (a n : Nat) (s t : State) : Prop :=
  ∀ b, b < a ∨ a + n ≤ b → Memory.read t.mem b = Memory.read s.mem b

/-- FX33 LD B, Vx: hundreds, tens and units at I, I+1, I+2; OutOfBoundsAccess when I + 2 > 0xFFF, the bytes it would
have written being unspecified. -/
def Obligations.DecimalDigitsAreStored : Prop :=
  (∀ w : Word, nib3 w = 0xF → fieldNN w = 0x33 → decodeWord w = some (.ldB (fieldX w))) ∧
  (∀ (x : Reg) (s : State), Memory.wf s.mem = true → s.idx.toNat + 2 ≤ 0xFFF →
    ∃ t, exec (.ldB x) s = .next t ∧
      (Memory.read t.mem s.idx.toNat).toNat = (s.getV x).toNat / 100 ∧
      (Memory.read t.mem (s.idx.toNat + 1)).toNat = (s.getV x).toNat / 10 % 10 ∧
      (Memory.read t.mem (s.idx.toNat + 2)).toNat = (s.getV x).toNat % 10 ∧
      OtherBytesUnchanged s.idx.toNat 3 s t ∧ t.pc = s.pc + 2 ∧ Frame [.mem] noReg s t) ∧
  (∀ (x : Reg) (s : State), 0xFFF < s.idx.toNat + 2 →
    ∃ t, exec (.ldB x) s = .next t ∧ Faulted .outOfBoundsAccess (formatXNN 0xF x 0x33) s t ∧
      OtherBytesUnchanged s.idx.toNat 3 s t ∧ Frame [.mem, .fault, .frees] noReg s t)

/-- FX55 LD [I], Vx: V0 through VX at I and on, I unchanged; OutOfBoundsAccess when I + X > 0xFFF, the bytes it would
have written being unspecified. -/
def Obligations.RegistersAreStored : Prop :=
  (∀ w : Word, nib3 w = 0xF → fieldNN w = 0x55 → decodeWord w = some (.stRegs (fieldX w))) ∧
  (∀ (x : Reg) (s : State), Memory.wf s.mem = true → s.idx.toNat + x.val ≤ 0xFFF →
    ∃ t, exec (.stRegs x) s = .next t ∧
      (∀ k : Reg, k ≤ x → Memory.read t.mem (s.idx.toNat + k.val) = s.getV k) ∧
      OtherBytesUnchanged s.idx.toNat (x.val + 1) s t ∧ t.pc = s.pc + 2 ∧ Frame [.mem] noReg s t) ∧
  (∀ (x : Reg) (s : State), 0xFFF < s.idx.toNat + x.val →
    ∃ t, exec (.stRegs x) s = .next t ∧ Faulted .outOfBoundsAccess (formatXNN 0xF x 0x55) s t ∧
      OtherBytesUnchanged s.idx.toNat (x.val + 1) s t ∧ Frame [.mem, .fault, .frees] noReg s t)

/-- FX65 LD Vx, [I]: V0 through VX from I and on, I unchanged; OutOfBoundsAccess when I + X > 0xFFF, the registers it
would have written being unspecified. -/
def Obligations.RegistersAreLoaded : Prop :=
  (∀ w : Word, nib3 w = 0xF → fieldNN w = 0x65 → decodeWord w = some (.ldRegs (fieldX w))) ∧
  (∀ (x : Reg) (s : State), s.idx.toNat + x.val ≤ 0xFFF →
    ∃ t, exec (.ldRegs x) s = .next t ∧
      (∀ k : Reg, k ≤ x → t.getV k = Memory.read s.mem (s.idx.toNat + k.val)) ∧
      t.pc = s.pc + 2 ∧ Frame [] (· ≤ x) s t) ∧
  (∀ (x : Reg) (s : State), 0xFFF < s.idx.toNat + x.val →
    ∃ t, exec (.ldRegs x) s = .next t ∧ Faulted .outOfBoundsAccess (formatXNN 0xF x 0x65) s t ∧
      Frame [.fault, .frees] (· ≤ x) s t)

/-- A byte written by MemWrite at a valid address is what MemRead gives there, every other address reads as before, an
invalid address raises OutOfBoundsAccess without effect, and the canonical form of Mem is kept. -/
def Obligations.MemoryReadsWhatWasWritten : Prop :=
  ∀ (a : Nat) (b : Byte) (s : State), Memory.wf s.mem = true →
    (a ≤ 0xFFF → ∃ t, memWrite a b s = .ok t ∧ memRead a t = .ok b ∧ Memory.wf t.mem = true ∧
      (∀ c, c ≠ a → memRead c t = memRead c s) ∧ t = { s with mem := t.mem }) ∧
    (0xFFF < a → memWrite a b s = .error .outOfBoundsAccess ∧ memRead a s = .error .outOfBoundsAccess)

/-- Self-modifying code: two bytes FX55 stores where the next STEP fetches are the instruction that STEP runs. -/
def Obligations.StoredBytesAreFetchedNext : Prop :=
  ∀ (x : Reg) (s : State) (i : Instr), s.halted = false → s.schedule = [] → Memory.wf s.mem = true →
    1 ≤ x.val → s.idx = s.pc + 2 → s.pc.toNat + 2 + x.val ≤ 0xFFF →
    decodeWord (wordOfBytes (s.getV 0) (s.getV 1)) = some i →
    ∃ t, exec (.stRegs x) s = .next t ∧ step t = exec i { t with started := true }

/-! ## Display (43_display.md) -/

/-- 00E0 CLS. -/
def Obligations.ClearTurnsEveryPixelOff : Prop :=
  decodeWord 0x00E0 = some .cls ∧
  (∀ s : State, ∃ t, exec .cls s = .next t ∧ (∀ x y, pixel t x y = false) ∧ t.pc = s.pc + 2 ∧
    Frame [.fb] noReg s t)

/-- The sprite bit that falls on pixel (px, py) when the `n` rows at I are drawn at (V[X], V[Y]): row py - V[Y], column
px - V[X], bit 7 leftmost; nothing outside the 8 columns and n rows, and no wrap (R102). -/
def spriteBit (s : State) (x y : Reg) (n : Nat) (px : Fin 64) (py : Fin 32) : Bool :=
  decide ((s.getV x).toNat ≤ px.val ∧ px.val < (s.getV x).toNat + 8 ∧ (s.getV y).toNat ≤ py.val ∧
    py.val < (s.getV y).toNat + n) &&
  (Memory.read s.mem (s.idx.toNat + (py.val - (s.getV y).toNat))).getLsbD (7 - (px.val - (s.getV x).toNat))

/-- DXYN DRW. When every row address is valid, each pixel of the frame is XORed with the sprite bit that falls on it, VF
is 1 exactly when a pixel was turned from on to off, and nothing else changes. When a row address exceeds 0xFFF, clipped
or not, OutOfBoundsAccess is raised; VF and the pixels of the rows before the bad one are unspecified (R111), every other
pixel and all else is unchanged. -/
def Obligations.DrawXorsClippedSprite : Prop :=
  (∀ w : Word, nib3 w = 0xD → decodeWord w = some (.drw (fieldX w) (fieldY w) (nib0 w))) ∧
  (∀ (x y : Reg) (n : Nibble) (s : State), n = 0 ∨ s.idx.toNat + n.toNat ≤ 0x1000 →
    ∃ t, exec (.drw x y n) s = .next t ∧
      (∀ px py, pixel t px py = (pixel s px py ^^ spriteBit s x y n.toNat px py)) ∧
      (t.getV regF = 0 ∨ t.getV regF = 1) ∧
      (t.getV regF = 1 ↔ ∃ px py, pixel s px py = true ∧ spriteBit s x y n.toNat px py = true) ∧
      t.pc = s.pc + 2 ∧ Frame [.fb] (· = regF) s t) ∧
  (∀ (x y : Reg) (n : Nibble) (s : State), n ≠ 0 → 0x1000 < s.idx.toNat + n.toNat →
    ∃ t, exec (.drw x y n) s = .next t ∧ Faulted .outOfBoundsAccess (formatXYN 0xD x y n) s t ∧
      (∀ (px : Fin 64) (py : Fin 32),
        ¬ ((s.getV x).toNat ≤ px.val ∧ px.val < (s.getV x).toNat + 8 ∧ (s.getV y).toNat ≤ py.val ∧
          py.val - (s.getV y).toNat + s.idx.toNat ≤ 0xFFF) →
        pixel t px py = pixel s px py) ∧
      Frame [.fault, .fb, .frees] (· = regF) s t)

/-- Drawing the same sprite twice restores FB exactly; the second draw sets VF = 1 exactly when a sprite bit of value 1
fell on a pixel that was off before the first (so, from a clear frame, on any pixel of the frame: R103's own words leave
that premise out, log 22: a conflict within the spec, where the model follows R101); where no pixel under a sprite bit
of 1 was on, the second draw sets VF exactly as R103's words say; on a clear framebuffer VF = 0. The coordinates are not VF's, so that both draws take the same
ones. -/
def Obligations.DrawingTwiceRestoresTheFrame : Prop :=
  (∀ (x y : Reg) (n : Nibble) (s : State), x ≠ regF → y ≠ regF → n = 0 ∨ s.idx.toNat + n.toNat ≤ 0x1000 →
    ∃ t u, exec (.drw x y n) s = .next t ∧ exec (.drw x y n) t = .next u ∧ u.fb = s.fb ∧
      (u.getV regF = 1 ↔ ∃ px py, spriteBit s x y n.toNat px py = true ∧ pixel s px py = false)) ∧
  (∀ (x y : Reg) (n : Nibble) (s : State), n = 0 ∨ s.idx.toNat + n.toNat ≤ 0x1000 →
    (∀ px py, pixel s px py = false) → ∃ t, exec (.drw x y n) s = .next t ∧ t.getV regF = 0) ∧
  (∀ (x y : Reg) (n : Nibble) (s : State), x ≠ regF → y ≠ regF → n = 0 ∨ s.idx.toNat + n.toNat ≤ 0x1000 →
    (∀ px py, spriteBit s x y n.toNat px py = true → pixel s px py = false) →
    ∃ t u, exec (.drw x y n) s = .next t ∧ exec (.drw x y n) t = .next u ∧
      (u.getV regF = 1 ↔ ∃ px py, spriteBit s x y n.toNat px py = true))

/-! ## Keypad and timers (44_keypad_timer_ops.md) -/

/-- EX9E SKP Vx and EXA1 SKNP Vx: the level of the key numbered V[X]; KeyIndexOutOfRange when V[X] > 15. -/
def Obligations.KeySkips : Prop :=
  (∀ w : Word, nib3 w = 0xE → fieldNN w = 0x9E → decodeWord w = some (.skp (fieldX w))) ∧
  (∀ w : Word, nib3 w = 0xE → fieldNN w = 0xA1 → decodeWord w = some (.sknp (fieldX w))) ∧
  (∀ (x : Reg) (s : State) (h : (s.getV x).toNat < 16),
    (∃ t, exec (.skp x) s = .next t ∧
      t.pc = (if s.keys[(s.getV x).toNat] = true then s.pc + 4 else s.pc + 2) ∧ Frame [] noReg s t) ∧
    (∃ t, exec (.sknp x) s = .next t ∧
      t.pc = (if s.keys[(s.getV x).toNat] = false then s.pc + 4 else s.pc + 2) ∧ Frame [] noReg s t)) ∧
  (∀ (x : Reg) (s : State), 15 < (s.getV x).toNat →
    (∃ t, exec (.skp x) s = .next t ∧ Faulted .keyIndexOutOfRange (formatXNN 0xE x 0x9E) s t ∧
      Frame [.fault] noReg s t) ∧
    (∃ t, exec (.sknp x) s = .next t ∧ Faulted .keyIndexOutOfRange (formatXNN 0xE x 0xA1) s t ∧
      Frame [.fault] noReg s t))

/-- FX07 LD Vx, DT; FX15 LD DT, Vx; FX18 LD ST, Vx. -/
def Obligations.TimerTransfers : Prop :=
  (∀ w : Word, nib3 w = 0xF → fieldNN w = 0x07 → decodeWord w = some (.ldVxDt (fieldX w))) ∧
  (∀ w : Word, nib3 w = 0xF → fieldNN w = 0x15 → decodeWord w = some (.ldDtVx (fieldX w))) ∧
  (∀ w : Word, nib3 w = 0xF → fieldNN w = 0x18 → decodeWord w = some (.ldStVx (fieldX w))) ∧
  (∀ (x : Reg) (s : State),
    (∃ t, exec (.ldVxDt x) s = .next t ∧ t.getV x = s.dt ∧ t.pc = s.pc + 2 ∧ Frame [] (· = x) s t) ∧
    (∃ t, exec (.ldDtVx x) s = .next t ∧ t.dt = s.getV x ∧ t.pc = s.pc + 2 ∧ Frame [.dt] noReg s t) ∧
    (∃ t, exec (.ldStVx x) s = .next t ∧ t.st = s.getV x ∧ t.pc = s.pc + 2 ∧ Frame [.st] noReg s t))

/-- FX0A LD Vx, K: the lowest key that is down is stored and the wait ends; with none down PC stays, keyWait is set and
V[X] is not written. -/
def Obligations.WaitKeyStoresTheLowestKey : Prop :=
  (∀ w : Word, nib3 w = 0xF → fieldNN w = 0x0A → decodeWord w = some (.ldVxK (fieldX w))) ∧
  (∀ (x : Reg) (s : State) (k : Fin 16), s.keys[k] = true → (∀ j : Fin 16, j < k → s.keys[j] = false) →
    ∃ t, exec (.ldVxK x) s = .next t ∧ (t.getV x).toNat = k.val ∧ t.keyWait = false ∧ t.pc = s.pc + 2 ∧
      Frame [.keyWait] (· = x) s t) ∧
  (∀ (x : Reg) (s : State), (∀ j : Fin 16, s.keys[j] = false) →
    ∃ t, exec (.ldVxK x) s = .next t ∧ t.keyWait = true ∧ t.pc = s.pc ∧ Frame [.keyWait] noReg s t)

/-- A key wait holds the program: while no key is down, STEPs repeat the wait at the same PC and nothing but keyWait and
the model's mark that a STEP ran changes; n of them leave the state of one. -/
def Obligations.KeyWaitRepeatsUntilAKeyIsDown : Prop :=
  ∀ (n : Nat) (x : Reg) (s : State), s.schedule = [] → s.halted = false → s.pc.toNat + 1 ≤ 0xFFF →
    decodeWord (wordOfBytes (Memory.read s.mem s.pc.toNat) (Memory.read s.mem (s.pc.toNat + 1))) = some (.ldVxK x) →
    (∀ j : Fin 16, s.keys[j] = false) →
    Host.Core.run core (n + 1) s = .next { s with keyWait := true, started := true }

/-- The ports: `sound_on` is ST ≠ 0, `status` gives halted and keyWait and, only when halted, err (R34, R122). -/
def Obligations.PortsShowTheState : Prop :=
  ∀ s : State, (soundOn s = true ↔ s.st.toNat ≠ 0) ∧ dtPort s = s.dt ∧ stPort s = s.st ∧
    (statusPort s).1 = s.halted ∧ (statusPort s).2.1 = s.keyWait ∧
    ((statusPort s).2.2 = some s.err ↔ s.halted = true)

/-! ## Whole-machine rules -/

/-- The six instructions that write VF as a flag (R21, R38). -/
def WritesFlag : Instr → Prop
  | .addReg _ _ | .sub _ _ | .shr _ _ | .subn _ _ | .shl _ _ | .drw _ _ _ => True
  | _ => False

/-- The registers an instruction names as destination (R37). -/
def Destination : Instr → Reg → Prop
  | .ldByte x _, r | .addByte x _, r | .ldReg x _, r | .orReg x _, r | .andReg x _, r | .xorReg x _, r
  | .addReg x _, r | .sub x _, r | .shr x _, r | .subn x _, r | .shl x _, r | .rnd x _, r | .ldVxDt x, r
  | .ldVxK x, r => r = x
  | .ldRegs x, r => r ≤ x
  | _, _ => False

/-- A register changes only in an instruction that names it as destination, and VF beside that only in the six that
write it as a flag. -/
def Obligations.OnlyDestinationsAndFlagsChangeRegisters : Prop :=
  ∀ (i : Instr) (s t : State) (r : Reg), exec i s = .next t → ¬ Destination i r → ¬ (WritesFlag i ∧ r = regF) →
    t.getV r = s.getV r

/-- Who writes what: I only ANNN, FX1E, FX29; the stack only 2NNN, 00EE; Mem only FX33, FX55; FB only 00E0, DXYN; DT
only FX15, ST only FX18; keyWait only FX0A; Keys no instruction. -/
def Obligations.EachPartHasItsWriters : Prop :=
  ∀ (i : Instr) (s t : State), exec i s = .next t →
    (t.idx = s.idx ∨ (∃ nnn, i = .ldI nnn) ∨ (∃ x, i = .addI x) ∨ (∃ x, i = .ldF x)) ∧
    ((t.stack = s.stack ∧ t.sp = s.sp) ∨ (∃ nnn, i = .call nnn) ∨ i = .ret) ∧
    (t.mem = s.mem ∨ (∃ x, i = .ldB x) ∨ (∃ x, i = .stRegs x)) ∧
    (t.fb = s.fb ∨ i = .cls ∨ (∃ x y n, i = .drw x y n)) ∧
    (t.dt = s.dt ∨ ∃ x, i = .ldDtVx x) ∧ (t.st = s.st ∨ ∃ x, i = .ldStVx x) ∧
    (t.keyWait = s.keyWait ∨ ∃ x, i = .ldVxK x) ∧ t.keys = s.keys

/-- "read by no instruction": running any instruction from two states that differ in ST gives two states that differ in
ST only, and not even there after FX18. The two runs take one and the same draw in CXNN, because the model's draw is a
function of the count of draws (log 2; R124 assumes no relation between draws), and one and the same free values in a
faulting instruction, a function of the count of them (log 3): both are the model's choice. -/
def Obligations.NoInstructionReadsTheSoundTimer : Prop :=
  ∀ (i : Instr) (s t : State) (b : Byte), exec i s = .next t →
    ((∀ x, i ≠ .ldStVx x) → exec i { s with st := b } = .next { t with st := b }) ∧
    (∀ x, i = .ldStVx x → exec i { s with st := b } = .next t)

/-- The next PC is one the table of R67 allows, unless a fault halts the block, and then PC stays. -/
def Obligations.NextPcIsAsTheTableSays : Prop :=
  ∀ (i : Instr) (s t : State), exec i s = .next t → s.halted = false →
    (t.halted = true ∧ t.pc = s.pc) ∨
    (t.halted = false ∧
      match i with
      | .jp nnn => t.pc.toNat = nnn.toNat
      | .call nnn => t.pc.toNat = nnn.toNat
      | .jpV0 nnn => t.pc.toNat = nnn.toNat + (s.getV 0).toNat
      | .ret => ∃ h : t.sp.val < s.sp.val, t.pc = entry s t.sp.val h
      | .seByte x nn => t.pc = if s.getV x = nn then s.pc + 4 else s.pc + 2
      | .sneByte x nn => t.pc = if s.getV x = nn then s.pc + 2 else s.pc + 4
      | .seReg x y => t.pc = if s.getV x = s.getV y then s.pc + 4 else s.pc + 2
      | .sneReg x y => t.pc = if s.getV x = s.getV y then s.pc + 2 else s.pc + 4
      | .skp x => t.pc = if keyDown (s.getV x).toNat s = true then s.pc + 4 else s.pc + 2
      | .sknp x => t.pc = if keyDown (s.getV x).toNat s = true then s.pc + 2 else s.pc + 4
      | .ldVxK _ => ((∃ k, keyDown k s = true) → t.pc = s.pc + 2) ∧ ((∀ k, keyDown k s = false) → t.pc = s.pc)
      | _ => t.pc = s.pc + 2)

/-- Which fault an instruction can raise, and when. -/
def FaultCondition (i : Instr) (s : State) : Option Fault :=
  match i with
  | .ret => if s.sp.val = 0 then some .stackUnderflow else none
  | .call _ => if s.sp.val = 16 then some .stackOverflow else none
  | .skp x => if 15 < (s.getV x).toNat then some .keyIndexOutOfRange else none
  | .sknp x => if 15 < (s.getV x).toNat then some .keyIndexOutOfRange else none
  | .drw _ _ n => if n.toNat ≠ 0 ∧ 0xFFF < s.idx.toNat + (n.toNat - 1) then some .outOfBoundsAccess else none
  | .ldB _ => if 0xFFF < s.idx.toNat + 2 then some .outOfBoundsAccess else none
  | .stRegs x => if 0xFFF < s.idx.toNat + x.val then some .outOfBoundsAccess else none
  | .ldRegs x => if 0xFFF < s.idx.toNat + x.val then some .outOfBoundsAccess else none
  | _ => none

/-- An instruction halts the block exactly when its fault's condition holds, and then the record says which fault, with
the instruction's PC and word, and PC stays; otherwise `halted` and `err` are as before. -/
def Obligations.FaultsAreRaisedExactlyWhenDue : Prop :=
  ∀ (w : Word) (i : Instr) (s t : State), decodeWord w = some i → exec i s = .next t →
    match FaultCondition i s with
    | some f => Faulted f w s t
    | none => t.halted = s.halted ∧ t.err = s.err

/-- TICK commutes with every instruction that neither reads nor writes a timer: of the two serial orders of a STEP and a
TICK (R117) a program can tell apart only those around FX07, FX15 and FX18. The two orders take one and the same draw in CXNN,
because the model's draw is a function of the count of draws (log 2; R124 assumes no relation between draws), and one
and the same free values in a faulting instruction, a function of the count of them (log 3): both are the model's
choice. -/
def Obligations.TickCommutesWithOtherInstructions : Prop :=
  ∀ (i : Instr) (s t : State), exec i s = .next t → (∀ x, i ≠ .ldVxDt x) → (∀ x, i ≠ .ldDtVx x) →
    (∀ x, i ≠ .ldStVx x) → exec i (tick s) = .next (tick t)

/-! ## Invariants -/

/-- The invariant holds after RESET, with every FONT and under every schedule. -/
def Obligations.InvariantHoldsAfterReset : Prop :=
  ∀ (font : Font) (schedule : List Transaction), State.Inv { State.resetWith font with schedule := schedule }

/-- Every step keeps the invariant of R40, whichever transaction runs. -/
def Obligations.EveryStepKeepsTheInvariant : Prop :=
  ∀ s t : State, s.Inv → step s = .next t → t.Inv

/-- Every state some interleaving of transactions reaches from RESET meets the invariant. -/
def Obligations.ReachableStatesMeetTheInvariant : Prop :=
  ∀ s : State, Reachable s → s.Inv

/-! ## The parameter FONT (00_scope.md R11, R12) -/

/-- FONT is a parameter, no state (R36): no transaction changes the one an instance runs with. -/
def Obligations.EveryStepKeepsTheFontParameter : Prop :=
  ∀ s t : State, step s = .next t → t.font = s.font

/-- While the 80 bytes of the parameter FONT stand where RESET put them, whatever the rest of Mem holds, FX29 with a digit
d in V[X] points I at the 5 bytes of glyph d, which are those of the FONT, whatever its bytes. -/
def Obligations.GlyphAddressesPointIntoTheFont : Prop :=
  ∀ (x : Reg) (d : Fin 16) (k : Fin 5) (font : Font) (s : State),
    (∀ a (h : a < 80), Memory.read s.mem a = font[a]) → (s.getV x).toNat = d.val →
    ∃ t, exec (.ldF x) s = .next t ∧ Memory.read t.mem (t.idx.toNat + k.val) = font[5 * d.val + k.val]'(by omega)
end

