-- ==== Sys2Proof/Laws/Decode.lean ====
section
/-! SUPPORT. The fields of a word of each format, and a word as its fields (30_encoding.md R58): what the decoder reads
from each format the encoder writes. -/

namespace Sys2Proof

/-! ## The bits of each format -/

theorem getLsbD_formatA (f : Nibble) (n : Addr) (i : Nat) :
    (formatA f n).getLsbD i = if i < 12 then n.getLsbD i else f.getLsbD (i - 12) := by
  change BitVec.getLsbD (f ++ n : BitVec (4 + 12)) i = _
  rw [BitVec.getLsbD_append]

theorem getLsbD_formatXNN (f : Nibble) (x : Reg) (nn : Byte) (i : Nat) :
    (formatXNN f x nn).getLsbD i =
      if i < 8 then nn.getLsbD i else if i - 8 < 4 then (regBits x).getLsbD (i - 8) else f.getLsbD (i - 8 - 4) := by
  change BitVec.getLsbD (f ++ regBits x ++ nn : BitVec (4 + 4 + 8)) i = _
  simp only [BitVec.getLsbD_append]

theorem getLsbD_formatXYN (f : Nibble) (x y : Reg) (n : Nibble) (i : Nat) :
    (formatXYN f x y n).getLsbD i =
      if i < 4 then n.getLsbD i else if i - 4 < 4 then (regBits y).getLsbD (i - 4)
      else if i - 4 - 4 < 4 then (regBits x).getLsbD (i - 4 - 4) else f.getLsbD (i - 4 - 4 - 4) := by
  change BitVec.getLsbD (f ++ regBits x ++ regBits y ++ n : BitVec (4 + 4 + 4 + 4)) i = _
  simp only [BitVec.getLsbD_append]

theorem getLsbD_wordOfBytes (hi lo : Byte) (i : Nat) :
    (wordOfBytes hi lo).getLsbD i = if i < 8 then lo.getLsbD i else hi.getLsbD (i - 8) := by
  change BitVec.getLsbD (hi ++ lo : BitVec (8 + 8)) i = _
  rw [BitVec.getLsbD_append]

theorem regBits_inj {x y : Reg} (h : regBits x = regBits y) : x = y := congrArg BitVec.toFin h

theorem regBits_fieldX (w : Word) : regBits (fieldX w) = nib2 w := rfl

theorem regBits_fieldY (w : Word) : regBits (fieldY w) = nib1 w := rfl

/-! ## What the decoder reads from each format -/

@[simp] theorem nib3_formatA (f : Nibble) (n : Addr) : nib3 (formatA f n) = f := by
  refine BitVec.eq_of_getLsbD_eq fun i hi => ?_
  simp only [nib3, BitVec.getLsbD_extractLsb', getLsbD_formatA]
  interval_cases i <;> simp

@[simp] theorem fieldNNN_formatA (f : Nibble) (n : Addr) : fieldNNN (formatA f n) = n := by
  refine BitVec.eq_of_getLsbD_eq fun i hi => ?_
  simp only [fieldNNN, BitVec.getLsbD_extractLsb', getLsbD_formatA]
  interval_cases i <;> simp

@[simp] theorem nib3_formatXNN (f : Nibble) (x : Reg) (nn : Byte) : nib3 (formatXNN f x nn) = f := by
  refine BitVec.eq_of_getLsbD_eq fun i hi => ?_
  simp only [nib3, BitVec.getLsbD_extractLsb', getLsbD_formatXNN]
  interval_cases i <;> simp

@[simp] theorem fieldX_formatXNN (f : Nibble) (x : Reg) (nn : Byte) : fieldX (formatXNN f x nn) = x := by
  refine regBits_inj (BitVec.eq_of_getLsbD_eq fun i hi => ?_)
  simp only [regBits_fieldX, nib2, BitVec.getLsbD_extractLsb', getLsbD_formatXNN]
  interval_cases i <;> simp

@[simp] theorem fieldNN_formatXNN (f : Nibble) (x : Reg) (nn : Byte) : fieldNN (formatXNN f x nn) = nn := by
  refine BitVec.eq_of_getLsbD_eq fun i hi => ?_
  simp only [fieldNN, BitVec.getLsbD_extractLsb', getLsbD_formatXNN]
  interval_cases i <;> simp

@[simp] theorem nib3_formatXYN (f : Nibble) (x y : Reg) (n : Nibble) : nib3 (formatXYN f x y n) = f := by
  refine BitVec.eq_of_getLsbD_eq fun i hi => ?_
  simp only [nib3, BitVec.getLsbD_extractLsb', getLsbD_formatXYN]
  interval_cases i <;> simp

@[simp] theorem fieldX_formatXYN (f : Nibble) (x y : Reg) (n : Nibble) : fieldX (formatXYN f x y n) = x := by
  refine regBits_inj (BitVec.eq_of_getLsbD_eq fun i hi => ?_)
  simp only [regBits_fieldX, nib2, BitVec.getLsbD_extractLsb', getLsbD_formatXYN]
  interval_cases i <;> simp

@[simp] theorem fieldY_formatXYN (f : Nibble) (x y : Reg) (n : Nibble) : fieldY (formatXYN f x y n) = y := by
  refine regBits_inj (BitVec.eq_of_getLsbD_eq fun i hi => ?_)
  simp only [regBits_fieldY, nib1, BitVec.getLsbD_extractLsb', getLsbD_formatXYN]
  interval_cases i <;> simp

@[simp] theorem nib0_formatXYN (f : Nibble) (x y : Reg) (n : Nibble) : nib0 (formatXYN f x y n) = n := by
  refine BitVec.eq_of_getLsbD_eq fun i hi => ?_
  simp only [nib0, BitVec.getLsbD_extractLsb', getLsbD_formatXYN]
  interval_cases i <;> simp

/-! ## A word is its fields -/

/-- A word of format A is its family nibble and its NNN. -/
theorem formatA_fields (w : Word) : formatA (nib3 w) (fieldNNN w) = w := by
  refine BitVec.eq_of_getLsbD_eq fun i hi => ?_
  simp only [getLsbD_formatA, nib3, fieldNNN, BitVec.getLsbD_extractLsb']
  interval_cases i <;> simp

/-- A word of format XNN is its family nibble, its X and its NN. -/
theorem formatXNN_fields (w : Word) : formatXNN (nib3 w) (fieldX w) (fieldNN w) = w := by
  refine BitVec.eq_of_getLsbD_eq fun i hi => ?_
  simp only [getLsbD_formatXNN, regBits_fieldX, nib3, nib2, fieldNN, BitVec.getLsbD_extractLsb']
  interval_cases i <;> simp

/-- A word of format XY or XYN is its family nibble, its X, its Y and its low nibble. -/
theorem formatXYN_fields (w : Word) : formatXYN (nib3 w) (fieldX w) (fieldY w) (nib0 w) = w := by
  refine BitVec.eq_of_getLsbD_eq fun i hi => ?_
  simp only [getLsbD_formatXYN, regBits_fieldX, regBits_fieldY, nib3, nib2, nib1, nib0, BitVec.getLsbD_extractLsb']
  interval_cases i <;> simp

/-- A nibble is one of sixteen: the case split over instruction families. -/
theorem nibble_cases (n : Nibble) :
    n = 0x0 ∨ n = 0x1 ∨ n = 0x2 ∨ n = 0x3 ∨ n = 0x4 ∨ n = 0x5 ∨ n = 0x6 ∨ n = 0x7 ∨
    n = 0x8 ∨ n = 0x9 ∨ n = 0xA ∨ n = 0xB ∨ n = 0xC ∨ n = 0xD ∨ n = 0xE ∨ n = 0xF := by
  revert n; decide

/-- A word is its two bytes. -/
@[simp] theorem wordOfBytes_bytes (w : Word) : wordOfBytes (highByte w) (lowByte w) = w := by
  refine BitVec.eq_of_getLsbD_eq fun i hi => ?_
  simp only [getLsbD_wordOfBytes, highByte, lowByte, BitVec.getLsbD_extractLsb']
  interval_cases i <;> simp

end Sys2Proof
end

