-- ==== Sys2Proof/Laws/Memory.lean ====
section
/-! SUPPORT. The laws of Mem as a canonical list: what a read gives after a write, that every write keeps the
canonical form, and that equal contents are equal lists (20_memory.md R43, R50, R54). -/

namespace Sys2Proof.Machine

@[simp] theorem Memory.read_nil (a : Nat) : Memory.read [] a = Memory.resetByte a := rfl

theorem Memory.read_cons (k : Nat) (b : Byte) (m : Memory) (a : Nat) :
    Memory.read ((k, b) :: m) a = if k = a then b else Memory.read m a := rfl

@[simp] theorem Memory.wf_nil : Memory.wf [] = true := rfl

theorem Memory.wfFrom_cons (lo k : Nat) (b : Byte) (m : Memory) :
    Memory.wfFrom lo ((k, b) :: m) = true ↔
      lo ≤ k ∧ k < 4096 ∧ b ≠ Memory.resetByte k ∧ Memory.wfFrom (k + 1) m = true := by
  simp [Memory.wfFrom, and_assoc]

theorem Memory.wfFrom_mono {lo lo' : Nat} (h : lo' ≤ lo) {m : Memory} (hm : Memory.wfFrom lo m = true) :
    Memory.wfFrom lo' m = true := by
  cases m with
  | nil => rfl
  | cons c m =>
    obtain ⟨k, b⟩ := c
    rw [Memory.wfFrom_cons] at hm ⊢
    exact ⟨h.trans hm.1, hm.2⟩

/-- An address below every cell reads as after RESET. -/
theorem Memory.read_below {lo a : Nat} (m : Memory) (hm : Memory.wfFrom lo m = true) (h : a < lo) :
    Memory.read m a = Memory.resetByte a := by
  induction m generalizing lo with
  | nil => rfl
  | cons c m ih =>
    obtain ⟨k, b⟩ := c
    rw [Memory.wfFrom_cons] at hm
    rw [Memory.read_cons, if_neg (by omega)]
    exact ih hm.2.2.2 (by omega)

theorem Memory.read_consCell_ne {a c : Nat} (h : a ≠ c) (b : Byte) (m : Memory) :
    Memory.read (Memory.consCell a b m) c = Memory.read m c := by
  unfold Memory.consCell
  split
  · rfl
  · rw [Memory.read_cons, if_neg h]

theorem Memory.read_consCell_self {a : Nat} (b : Byte) {m : Memory} (hm : Memory.wfFrom (a + 1) m = true) :
    Memory.read (Memory.consCell a b m) a = b := by
  unfold Memory.consCell
  split
  · next h => rw [h, Memory.read_below m hm (Nat.lt_succ_self a)]
  · rw [Memory.read_cons, if_pos rfl]

/-- A write leaves every other address alone. -/
theorem Memory.read_write_ne {a c : Nat} (h : a ≠ c) (m : Memory) (b : Byte) :
    Memory.read (Memory.write m a b) c = Memory.read m c := by
  induction m with
  | nil => exact Memory.read_consCell_ne h b []
  | cons cell m ih =>
    obtain ⟨k, d⟩ := cell
    unfold Memory.write
    split
    · exact Memory.read_consCell_ne h b _
    · split
      · next hk => rw [Memory.read_consCell_ne h, Memory.read_cons, if_neg (by omega)]
      · rw [Memory.read_cons, Memory.read_cons, ih]

theorem Memory.read_write_self_from {lo a : Nat} (m : Memory) (hm : Memory.wfFrom lo m = true) (b : Byte) :
    Memory.read (Memory.write m a b) a = b := by
  induction m generalizing lo with
  | nil => exact Memory.read_consCell_self b (by rfl)
  | cons cell m ih =>
    obtain ⟨k, d⟩ := cell
    have hc := (Memory.wfFrom_cons lo k d m).1 hm
    unfold Memory.write
    split
    · next hk =>
      exact Memory.read_consCell_self b ((Memory.wfFrom_cons _ k d m).2 ⟨hk, hc.2⟩)
    · split
      · next hk => subst hk; exact Memory.read_consCell_self b hc.2.2.2
      · next hk => rw [Memory.read_cons, if_neg (Ne.symm hk)]; exact ih hc.2.2.2

/-- A read after a write to the same address gives the value written. -/
theorem Memory.read_write_self {m : Memory} (hm : Memory.wf m = true) (a : Nat) (b : Byte) :
    Memory.read (Memory.write m a b) a = b := Memory.read_write_self_from m hm b

theorem Memory.wfFrom_consCell {lo a : Nat} (hlo : lo ≤ a) (ha : a < 4096) (b : Byte) {m : Memory}
    (hm : Memory.wfFrom (a + 1) m = true) : Memory.wfFrom lo (Memory.consCell a b m) = true := by
  unfold Memory.consCell
  split
  · exact Memory.wfFrom_mono (by omega) hm
  · next h => exact (Memory.wfFrom_cons _ _ _ _).2 ⟨hlo, ha, h, hm⟩

theorem Memory.wfFrom_write {lo a : Nat} (m : Memory) (hm : Memory.wfFrom lo m = true) (hlo : lo ≤ a) (ha : a < 4096)
    (b : Byte) : Memory.wfFrom lo (Memory.write m a b) = true := by
  induction m generalizing lo with
  | nil => exact Memory.wfFrom_consCell hlo ha b (by rfl)
  | cons cell m ih =>
    obtain ⟨k, d⟩ := cell
    have hc := (Memory.wfFrom_cons lo k d m).1 hm
    unfold Memory.write
    split
    · next hk => exact Memory.wfFrom_consCell hlo ha b ((Memory.wfFrom_cons _ k d m).2 ⟨hk, hc.2⟩)
    · split
      · next hk => subst hk; exact Memory.wfFrom_consCell hlo ha b hc.2.2.2
      · next hk =>
        exact (Memory.wfFrom_cons _ _ _ _).2 ⟨hc.1, hc.2.1, hc.2.2.1, ih hc.2.2.2 (by omega)⟩

/-- A write at a valid address keeps the canonical form. -/
theorem Memory.wf_write {m : Memory} (hm : Memory.wf m = true) {a : Nat} (ha : a < 4096) (b : Byte) :
    Memory.wf (Memory.write m a b) = true := Memory.wfFrom_write m hm (Nat.zero_le a) ha b

/-- Writing consecutive bytes at valid addresses keeps the canonical form. -/
theorem Memory.wf_writeBytes {m : Memory} (hm : Memory.wf m = true) {a : Nat} (bs : List Byte)
    (ha : a + bs.length ≤ 4096) : Memory.wf (Memory.writeBytes m a bs) = true := by
  induction bs generalizing m a with
  | nil => exact hm
  | cons b bs ih =>
    rw [List.length_cons] at ha
    exact ih (Memory.wf_write hm (by omega) b) (by omega)

/-- Writing consecutive bytes leaves every address outside them alone. -/
theorem Memory.read_writeBytes_outside {a c : Nat} (m : Memory) (bs : List Byte) (h : c < a ∨ a + bs.length ≤ c) :
    Memory.read (Memory.writeBytes m a bs) c = Memory.read m c := by
  induction bs generalizing m a with
  | nil => rfl
  | cons b bs ih =>
    rw [List.length_cons] at h
    rw [Memory.writeBytes, ih _ (by omega), Memory.read_write_ne (by omega)]

/-- Byte k of consecutive bytes written at valid addresses reads back. -/
theorem Memory.read_writeBytes_inside {m : Memory} (hm : Memory.wf m = true) {a : Nat} (bs : List Byte)
    (ha : a + bs.length ≤ 4096) {k : Nat} (hk : k < bs.length) :
    Memory.read (Memory.writeBytes m a bs) (a + k) = bs[k] := by
  induction bs generalizing m a k with
  | nil => exact absurd hk (Nat.not_lt_zero k)
  | cons b bs ih =>
    rw [List.length_cons] at ha hk
    have hw := Memory.wf_write hm (a := a) (by omega) b
    cases k with
    | zero => rw [Memory.writeBytes, Memory.read_writeBytes_outside _ _ (by omega), Nat.add_zero,
        Memory.read_write_self hm]; rfl
    | succ k =>
      have := ih hw (a := a + 1) (by omega) (k := k) (by omega)
      rw [Memory.writeBytes, show a + (k + 1) = a + 1 + k by omega, this]; rfl

theorem Memory.ext_from {lo : Nat} (m m' : Memory) (hm : Memory.wfFrom lo m = true) (hm' : Memory.wfFrom lo m' = true)
    (h : ∀ a, Memory.read m a = Memory.read m' a) : m = m' := by
  induction m generalizing lo m' with
  | nil =>
    cases m' with
    | nil => rfl
    | cons c m' =>
      obtain ⟨k, b⟩ := c
      have hc := (Memory.wfFrom_cons _ _ _ _).1 hm'
      have := h k
      rw [Memory.read_cons, if_pos rfl] at this
      exact absurd this.symm hc.2.2.1
  | cons c m ih =>
    obtain ⟨k, b⟩ := c
    have hc := (Memory.wfFrom_cons _ _ _ _).1 hm
    cases m' with
    | nil =>
      have := h k
      rw [Memory.read_cons, if_pos rfl] at this
      exact absurd this hc.2.2.1
    | cons c' m' =>
      obtain ⟨k', b'⟩ := c'
      have hc' := (Memory.wfFrom_cons _ _ _ _).1 hm'
      have hk : k = k' := by
        rcases Nat.lt_trichotomy k k' with hlt | heq | hgt
        · have := h k
          rw [Memory.read_cons, if_pos rfl, Memory.read_cons, if_neg (by omega),
            Memory.read_below m' hc'.2.2.2 (by omega)] at this
          exact absurd this hc.2.2.1
        · exact heq
        · have := h k'
          rw [Memory.read_cons, if_neg (by omega), Memory.read_below m hc.2.2.2 (by omega), Memory.read_cons,
            if_pos rfl] at this
          exact absurd this.symm hc'.2.2.1
      subst hk
      have hb : b = b' := by
        have := h k
        rwa [Memory.read_cons, if_pos rfl, Memory.read_cons, if_pos rfl] at this
      subst hb
      congr 1
      refine ih m' hc.2.2.2 hc'.2.2.2 fun a => ?_
      by_cases ha : k = a
      · subst ha
        rw [Memory.read_below m hc.2.2.2 (Nat.lt_succ_self k), Memory.read_below m' hc'.2.2.2 (Nat.lt_succ_self k)]
      · have := h a
        rwa [Memory.read_cons, if_neg ha, Memory.read_cons, if_neg ha] at this

/-- Canonical memories with equal contents are equal data. -/
theorem Memory.ext_of_wf {m m' : Memory} (hm : Memory.wf m = true) (hm' : Memory.wf m' = true)
    (h : ∀ a, Memory.read m a = Memory.read m' a) : m = m' := Memory.ext_from m m' hm hm' h

@[simp] theorem Memory.wf_seeded (font : Font) : Memory.wf (Memory.seeded font) = true :=
  Memory.wf_writeBytes Memory.wf_nil _ (by simp)

/-- After RESET the font stands at FONT_BASE. -/
theorem Memory.read_seeded_font (font : Font) {k : Nat} (h : k < 80) : Memory.read (Memory.seeded font) k = font[k] := by
  have := Memory.read_writeBytes_inside Memory.wf_nil (a := Config.fontBase) font.toList (by simp) (k := k) (by simpa)
  simpa [Memory.seeded] using this

/-- After RESET every byte beside the font is 0. -/
theorem Memory.read_seeded_rest (font : Font) {a : Nat} (h : 80 ≤ a) : Memory.read (Memory.seeded font) a = 0 := by
  rw [Memory.seeded, Memory.read_writeBytes_outside _ _ (.inr (by simpa using h)), Memory.read_nil, Memory.resetByte,
    if_pos (Nat.zero_le a), List.getD_eq_default _ _ (show Config.fontTable.length ≤ a - Config.fontBase from h)]

/-- With the default FONT nothing differs from what an unlisted address reads as. -/
theorem Memory.seeded_default : Memory.seeded Config.font = [] := by
  refine Memory.ext_of_wf (Memory.wf_seeded _) Memory.wf_nil fun a => ?_
  by_cases h : a < 80
  · rw [Memory.read_seeded_font _ h, Memory.read_nil, Memory.resetByte, if_pos (Nat.zero_le a)]
    exact (List.getD_eq_getElem _ _ (show a < Config.fontTable.length from h)).symm
  · rw [Memory.read_seeded_rest _ (Nat.le_of_not_lt h), Memory.read_nil, Memory.resetByte, if_pos (Nat.zero_le a)]
    exact (List.getD_eq_default _ _ (show Config.fontTable.length ≤ a from Nat.le_of_not_lt h)).symm

end Sys2Proof.Machine
end

