-- ==== Sys2Proof/Laws/State.lean ====
section
/-! SUPPORT. Every named update of State read back field by field (generated shape: one lemma per field per update),
so that no later proof unfolds a record update. -/

namespace Sys2Proof.Machine

variable (s : State)

/-! ## setV -/

@[simp] theorem State.setV_v (x : Reg) (b : Byte) : (s.setV x b).v = s.v.set x b := rfl
@[simp] theorem State.setV_idx (x : Reg) (b : Byte) : (s.setV x b).idx = s.idx := rfl
@[simp] theorem State.setV_pc (x : Reg) (b : Byte) : (s.setV x b).pc = s.pc := rfl
@[simp] theorem State.setV_stack (x : Reg) (b : Byte) : (s.setV x b).stack = s.stack := rfl
@[simp] theorem State.setV_sp (x : Reg) (b : Byte) : (s.setV x b).sp = s.sp := rfl
@[simp] theorem State.setV_dt (x : Reg) (b : Byte) : (s.setV x b).dt = s.dt := rfl
@[simp] theorem State.setV_st (x : Reg) (b : Byte) : (s.setV x b).st = s.st := rfl
@[simp] theorem State.setV_keyWait (x : Reg) (b : Byte) : (s.setV x b).keyWait = s.keyWait := rfl
@[simp] theorem State.setV_halted (x : Reg) (b : Byte) : (s.setV x b).halted = s.halted := rfl
@[simp] theorem State.setV_err (x : Reg) (b : Byte) : (s.setV x b).err = s.err := rfl
@[simp] theorem State.setV_mem (x : Reg) (b : Byte) : (s.setV x b).mem = s.mem := rfl
@[simp] theorem State.setV_fb (x : Reg) (b : Byte) : (s.setV x b).fb = s.fb := rfl
@[simp] theorem State.setV_keys (x : Reg) (b : Byte) : (s.setV x b).keys = s.keys := rfl
@[simp] theorem State.setV_started (x : Reg) (b : Byte) : (s.setV x b).started = s.started := rfl
@[simp] theorem State.setV_draws (x : Reg) (b : Byte) : (s.setV x b).draws = s.draws := rfl
@[simp] theorem State.setV_frees (x : Reg) (b : Byte) : (s.setV x b).frees = s.frees := rfl
@[simp] theorem State.setV_schedule (x : Reg) (b : Byte) : (s.setV x b).schedule = s.schedule := rfl
@[simp] theorem State.setV_font (x : Reg) (b : Byte) : (s.setV x b).font = s.font := rfl

/-! ## setIdx -/

@[simp] theorem State.setIdx_v (w : Word) : (s.setIdx w).v = s.v := rfl
@[simp] theorem State.setIdx_idx (w : Word) : (s.setIdx w).idx = w := rfl
@[simp] theorem State.setIdx_pc (w : Word) : (s.setIdx w).pc = s.pc := rfl
@[simp] theorem State.setIdx_stack (w : Word) : (s.setIdx w).stack = s.stack := rfl
@[simp] theorem State.setIdx_sp (w : Word) : (s.setIdx w).sp = s.sp := rfl
@[simp] theorem State.setIdx_dt (w : Word) : (s.setIdx w).dt = s.dt := rfl
@[simp] theorem State.setIdx_st (w : Word) : (s.setIdx w).st = s.st := rfl
@[simp] theorem State.setIdx_keyWait (w : Word) : (s.setIdx w).keyWait = s.keyWait := rfl
@[simp] theorem State.setIdx_halted (w : Word) : (s.setIdx w).halted = s.halted := rfl
@[simp] theorem State.setIdx_err (w : Word) : (s.setIdx w).err = s.err := rfl
@[simp] theorem State.setIdx_mem (w : Word) : (s.setIdx w).mem = s.mem := rfl
@[simp] theorem State.setIdx_fb (w : Word) : (s.setIdx w).fb = s.fb := rfl
@[simp] theorem State.setIdx_keys (w : Word) : (s.setIdx w).keys = s.keys := rfl
@[simp] theorem State.setIdx_started (w : Word) : (s.setIdx w).started = s.started := rfl
@[simp] theorem State.setIdx_draws (w : Word) : (s.setIdx w).draws = s.draws := rfl
@[simp] theorem State.setIdx_frees (w : Word) : (s.setIdx w).frees = s.frees := rfl
@[simp] theorem State.setIdx_schedule (w : Word) : (s.setIdx w).schedule = s.schedule := rfl
@[simp] theorem State.setIdx_font (w : Word) : (s.setIdx w).font = s.font := rfl

/-! ## setPc -/

@[simp] theorem State.setPc_v (w : Word) : (s.setPc w).v = s.v := rfl
@[simp] theorem State.setPc_idx (w : Word) : (s.setPc w).idx = s.idx := rfl
@[simp] theorem State.setPc_pc (w : Word) : (s.setPc w).pc = w := rfl
@[simp] theorem State.setPc_stack (w : Word) : (s.setPc w).stack = s.stack := rfl
@[simp] theorem State.setPc_sp (w : Word) : (s.setPc w).sp = s.sp := rfl
@[simp] theorem State.setPc_dt (w : Word) : (s.setPc w).dt = s.dt := rfl
@[simp] theorem State.setPc_st (w : Word) : (s.setPc w).st = s.st := rfl
@[simp] theorem State.setPc_keyWait (w : Word) : (s.setPc w).keyWait = s.keyWait := rfl
@[simp] theorem State.setPc_halted (w : Word) : (s.setPc w).halted = s.halted := rfl
@[simp] theorem State.setPc_err (w : Word) : (s.setPc w).err = s.err := rfl
@[simp] theorem State.setPc_mem (w : Word) : (s.setPc w).mem = s.mem := rfl
@[simp] theorem State.setPc_fb (w : Word) : (s.setPc w).fb = s.fb := rfl
@[simp] theorem State.setPc_keys (w : Word) : (s.setPc w).keys = s.keys := rfl
@[simp] theorem State.setPc_started (w : Word) : (s.setPc w).started = s.started := rfl
@[simp] theorem State.setPc_draws (w : Word) : (s.setPc w).draws = s.draws := rfl
@[simp] theorem State.setPc_frees (w : Word) : (s.setPc w).frees = s.frees := rfl
@[simp] theorem State.setPc_schedule (w : Word) : (s.setPc w).schedule = s.schedule := rfl
@[simp] theorem State.setPc_font (w : Word) : (s.setPc w).font = s.font := rfl

/-! ## setDt -/

@[simp] theorem State.setDt_v (b : Byte) : (s.setDt b).v = s.v := rfl
@[simp] theorem State.setDt_idx (b : Byte) : (s.setDt b).idx = s.idx := rfl
@[simp] theorem State.setDt_pc (b : Byte) : (s.setDt b).pc = s.pc := rfl
@[simp] theorem State.setDt_stack (b : Byte) : (s.setDt b).stack = s.stack := rfl
@[simp] theorem State.setDt_sp (b : Byte) : (s.setDt b).sp = s.sp := rfl
@[simp] theorem State.setDt_dt (b : Byte) : (s.setDt b).dt = b := rfl
@[simp] theorem State.setDt_st (b : Byte) : (s.setDt b).st = s.st := rfl
@[simp] theorem State.setDt_keyWait (b : Byte) : (s.setDt b).keyWait = s.keyWait := rfl
@[simp] theorem State.setDt_halted (b : Byte) : (s.setDt b).halted = s.halted := rfl
@[simp] theorem State.setDt_err (b : Byte) : (s.setDt b).err = s.err := rfl
@[simp] theorem State.setDt_mem (b : Byte) : (s.setDt b).mem = s.mem := rfl
@[simp] theorem State.setDt_fb (b : Byte) : (s.setDt b).fb = s.fb := rfl
@[simp] theorem State.setDt_keys (b : Byte) : (s.setDt b).keys = s.keys := rfl
@[simp] theorem State.setDt_started (b : Byte) : (s.setDt b).started = s.started := rfl
@[simp] theorem State.setDt_draws (b : Byte) : (s.setDt b).draws = s.draws := rfl
@[simp] theorem State.setDt_frees (b : Byte) : (s.setDt b).frees = s.frees := rfl
@[simp] theorem State.setDt_schedule (b : Byte) : (s.setDt b).schedule = s.schedule := rfl
@[simp] theorem State.setDt_font (b : Byte) : (s.setDt b).font = s.font := rfl

/-! ## setSt -/

@[simp] theorem State.setSt_v (b : Byte) : (s.setSt b).v = s.v := rfl
@[simp] theorem State.setSt_idx (b : Byte) : (s.setSt b).idx = s.idx := rfl
@[simp] theorem State.setSt_pc (b : Byte) : (s.setSt b).pc = s.pc := rfl
@[simp] theorem State.setSt_stack (b : Byte) : (s.setSt b).stack = s.stack := rfl
@[simp] theorem State.setSt_sp (b : Byte) : (s.setSt b).sp = s.sp := rfl
@[simp] theorem State.setSt_dt (b : Byte) : (s.setSt b).dt = s.dt := rfl
@[simp] theorem State.setSt_st (b : Byte) : (s.setSt b).st = b := rfl
@[simp] theorem State.setSt_keyWait (b : Byte) : (s.setSt b).keyWait = s.keyWait := rfl
@[simp] theorem State.setSt_halted (b : Byte) : (s.setSt b).halted = s.halted := rfl
@[simp] theorem State.setSt_err (b : Byte) : (s.setSt b).err = s.err := rfl
@[simp] theorem State.setSt_mem (b : Byte) : (s.setSt b).mem = s.mem := rfl
@[simp] theorem State.setSt_fb (b : Byte) : (s.setSt b).fb = s.fb := rfl
@[simp] theorem State.setSt_keys (b : Byte) : (s.setSt b).keys = s.keys := rfl
@[simp] theorem State.setSt_started (b : Byte) : (s.setSt b).started = s.started := rfl
@[simp] theorem State.setSt_draws (b : Byte) : (s.setSt b).draws = s.draws := rfl
@[simp] theorem State.setSt_frees (b : Byte) : (s.setSt b).frees = s.frees := rfl
@[simp] theorem State.setSt_schedule (b : Byte) : (s.setSt b).schedule = s.schedule := rfl
@[simp] theorem State.setSt_font (b : Byte) : (s.setSt b).font = s.font := rfl

/-! ## setKeyWait -/

@[simp] theorem State.setKeyWait_v (b : Bool) : (s.setKeyWait b).v = s.v := rfl
@[simp] theorem State.setKeyWait_idx (b : Bool) : (s.setKeyWait b).idx = s.idx := rfl
@[simp] theorem State.setKeyWait_pc (b : Bool) : (s.setKeyWait b).pc = s.pc := rfl
@[simp] theorem State.setKeyWait_stack (b : Bool) : (s.setKeyWait b).stack = s.stack := rfl
@[simp] theorem State.setKeyWait_sp (b : Bool) : (s.setKeyWait b).sp = s.sp := rfl
@[simp] theorem State.setKeyWait_dt (b : Bool) : (s.setKeyWait b).dt = s.dt := rfl
@[simp] theorem State.setKeyWait_st (b : Bool) : (s.setKeyWait b).st = s.st := rfl
@[simp] theorem State.setKeyWait_keyWait (b : Bool) : (s.setKeyWait b).keyWait = b := rfl
@[simp] theorem State.setKeyWait_halted (b : Bool) : (s.setKeyWait b).halted = s.halted := rfl
@[simp] theorem State.setKeyWait_err (b : Bool) : (s.setKeyWait b).err = s.err := rfl
@[simp] theorem State.setKeyWait_mem (b : Bool) : (s.setKeyWait b).mem = s.mem := rfl
@[simp] theorem State.setKeyWait_fb (b : Bool) : (s.setKeyWait b).fb = s.fb := rfl
@[simp] theorem State.setKeyWait_keys (b : Bool) : (s.setKeyWait b).keys = s.keys := rfl
@[simp] theorem State.setKeyWait_started (b : Bool) : (s.setKeyWait b).started = s.started := rfl
@[simp] theorem State.setKeyWait_draws (b : Bool) : (s.setKeyWait b).draws = s.draws := rfl
@[simp] theorem State.setKeyWait_frees (b : Bool) : (s.setKeyWait b).frees = s.frees := rfl
@[simp] theorem State.setKeyWait_schedule (b : Bool) : (s.setKeyWait b).schedule = s.schedule := rfl
@[simp] theorem State.setKeyWait_font (b : Bool) : (s.setKeyWait b).font = s.font := rfl

/-! ## setFb -/

@[simp] theorem State.setFb_v (f : Framebuffer) : (s.setFb f).v = s.v := rfl
@[simp] theorem State.setFb_idx (f : Framebuffer) : (s.setFb f).idx = s.idx := rfl
@[simp] theorem State.setFb_pc (f : Framebuffer) : (s.setFb f).pc = s.pc := rfl
@[simp] theorem State.setFb_stack (f : Framebuffer) : (s.setFb f).stack = s.stack := rfl
@[simp] theorem State.setFb_sp (f : Framebuffer) : (s.setFb f).sp = s.sp := rfl
@[simp] theorem State.setFb_dt (f : Framebuffer) : (s.setFb f).dt = s.dt := rfl
@[simp] theorem State.setFb_st (f : Framebuffer) : (s.setFb f).st = s.st := rfl
@[simp] theorem State.setFb_keyWait (f : Framebuffer) : (s.setFb f).keyWait = s.keyWait := rfl
@[simp] theorem State.setFb_halted (f : Framebuffer) : (s.setFb f).halted = s.halted := rfl
@[simp] theorem State.setFb_err (f : Framebuffer) : (s.setFb f).err = s.err := rfl
@[simp] theorem State.setFb_mem (f : Framebuffer) : (s.setFb f).mem = s.mem := rfl
@[simp] theorem State.setFb_fb (f : Framebuffer) : (s.setFb f).fb = f := rfl
@[simp] theorem State.setFb_keys (f : Framebuffer) : (s.setFb f).keys = s.keys := rfl
@[simp] theorem State.setFb_started (f : Framebuffer) : (s.setFb f).started = s.started := rfl
@[simp] theorem State.setFb_draws (f : Framebuffer) : (s.setFb f).draws = s.draws := rfl
@[simp] theorem State.setFb_frees (f : Framebuffer) : (s.setFb f).frees = s.frees := rfl
@[simp] theorem State.setFb_schedule (f : Framebuffer) : (s.setFb f).schedule = s.schedule := rfl
@[simp] theorem State.setFb_font (f : Framebuffer) : (s.setFb f).font = s.font := rfl

/-! ## setMem -/

@[simp] theorem State.setMem_v (m : Memory) : (s.setMem m).v = s.v := rfl
@[simp] theorem State.setMem_idx (m : Memory) : (s.setMem m).idx = s.idx := rfl
@[simp] theorem State.setMem_pc (m : Memory) : (s.setMem m).pc = s.pc := rfl
@[simp] theorem State.setMem_stack (m : Memory) : (s.setMem m).stack = s.stack := rfl
@[simp] theorem State.setMem_sp (m : Memory) : (s.setMem m).sp = s.sp := rfl
@[simp] theorem State.setMem_dt (m : Memory) : (s.setMem m).dt = s.dt := rfl
@[simp] theorem State.setMem_st (m : Memory) : (s.setMem m).st = s.st := rfl
@[simp] theorem State.setMem_keyWait (m : Memory) : (s.setMem m).keyWait = s.keyWait := rfl
@[simp] theorem State.setMem_halted (m : Memory) : (s.setMem m).halted = s.halted := rfl
@[simp] theorem State.setMem_err (m : Memory) : (s.setMem m).err = s.err := rfl
@[simp] theorem State.setMem_mem (m : Memory) : (s.setMem m).mem = m := rfl
@[simp] theorem State.setMem_fb (m : Memory) : (s.setMem m).fb = s.fb := rfl
@[simp] theorem State.setMem_keys (m : Memory) : (s.setMem m).keys = s.keys := rfl
@[simp] theorem State.setMem_started (m : Memory) : (s.setMem m).started = s.started := rfl
@[simp] theorem State.setMem_draws (m : Memory) : (s.setMem m).draws = s.draws := rfl
@[simp] theorem State.setMem_frees (m : Memory) : (s.setMem m).frees = s.frees := rfl
@[simp] theorem State.setMem_schedule (m : Memory) : (s.setMem m).schedule = s.schedule := rfl
@[simp] theorem State.setMem_font (m : Memory) : (s.setMem m).font = s.font := rfl

/-! ## push -/

@[simp] theorem State.push_v (w : Word) (h : s.sp.val < Config.stackDepth) : (s.push w h).v = s.v := rfl
@[simp] theorem State.push_idx (w : Word) (h : s.sp.val < Config.stackDepth) : (s.push w h).idx = s.idx := rfl
@[simp] theorem State.push_pc (w : Word) (h : s.sp.val < Config.stackDepth) : (s.push w h).pc = s.pc := rfl
@[simp] theorem State.push_stack (w : Word) (h : s.sp.val < Config.stackDepth) : (s.push w h).stack = s.stack.set s.sp.val w h := rfl
@[simp] theorem State.push_sp (w : Word) (h : s.sp.val < Config.stackDepth) : (s.push w h).sp = ⟨s.sp.val + 1, Nat.succ_lt_succ h⟩ := rfl
@[simp] theorem State.push_dt (w : Word) (h : s.sp.val < Config.stackDepth) : (s.push w h).dt = s.dt := rfl
@[simp] theorem State.push_st (w : Word) (h : s.sp.val < Config.stackDepth) : (s.push w h).st = s.st := rfl
@[simp] theorem State.push_keyWait (w : Word) (h : s.sp.val < Config.stackDepth) : (s.push w h).keyWait = s.keyWait := rfl
@[simp] theorem State.push_halted (w : Word) (h : s.sp.val < Config.stackDepth) : (s.push w h).halted = s.halted := rfl
@[simp] theorem State.push_err (w : Word) (h : s.sp.val < Config.stackDepth) : (s.push w h).err = s.err := rfl
@[simp] theorem State.push_mem (w : Word) (h : s.sp.val < Config.stackDepth) : (s.push w h).mem = s.mem := rfl
@[simp] theorem State.push_fb (w : Word) (h : s.sp.val < Config.stackDepth) : (s.push w h).fb = s.fb := rfl
@[simp] theorem State.push_keys (w : Word) (h : s.sp.val < Config.stackDepth) : (s.push w h).keys = s.keys := rfl
@[simp] theorem State.push_started (w : Word) (h : s.sp.val < Config.stackDepth) : (s.push w h).started = s.started := rfl
@[simp] theorem State.push_draws (w : Word) (h : s.sp.val < Config.stackDepth) : (s.push w h).draws = s.draws := rfl
@[simp] theorem State.push_frees (w : Word) (h : s.sp.val < Config.stackDepth) : (s.push w h).frees = s.frees := rfl
@[simp] theorem State.push_schedule (w : Word) (h : s.sp.val < Config.stackDepth) : (s.push w h).schedule = s.schedule := rfl
@[simp] theorem State.push_font (w : Word) (h : s.sp.val < Config.stackDepth) : (s.push w h).font = s.font := rfl

/-! ## drop -/

@[simp] theorem State.drop_v : (s.drop).v = s.v := rfl
@[simp] theorem State.drop_idx : (s.drop).idx = s.idx := rfl
@[simp] theorem State.drop_pc : (s.drop).pc = s.pc := rfl
@[simp] theorem State.drop_stack : (s.drop).stack = s.stack := rfl
@[simp] theorem State.drop_sp : (s.drop).sp = ⟨s.sp.val - 1, Nat.lt_of_le_of_lt (Nat.sub_le _ _) s.sp.isLt⟩ := rfl
@[simp] theorem State.drop_dt : (s.drop).dt = s.dt := rfl
@[simp] theorem State.drop_st : (s.drop).st = s.st := rfl
@[simp] theorem State.drop_keyWait : (s.drop).keyWait = s.keyWait := rfl
@[simp] theorem State.drop_halted : (s.drop).halted = s.halted := rfl
@[simp] theorem State.drop_err : (s.drop).err = s.err := rfl
@[simp] theorem State.drop_mem : (s.drop).mem = s.mem := rfl
@[simp] theorem State.drop_fb : (s.drop).fb = s.fb := rfl
@[simp] theorem State.drop_keys : (s.drop).keys = s.keys := rfl
@[simp] theorem State.drop_started : (s.drop).started = s.started := rfl
@[simp] theorem State.drop_draws : (s.drop).draws = s.draws := rfl
@[simp] theorem State.drop_frees : (s.drop).frees = s.frees := rfl
@[simp] theorem State.drop_schedule : (s.drop).schedule = s.schedule := rfl
@[simp] theorem State.drop_font : (s.drop).font = s.font := rfl

/-! ## loadRegs -/

@[simp] theorem State.loadRegs_v (bs : List Byte) : (s.loadRegs bs).v = loadFrom s.v 0 bs := rfl
@[simp] theorem State.loadRegs_idx (bs : List Byte) : (s.loadRegs bs).idx = s.idx := rfl
@[simp] theorem State.loadRegs_pc (bs : List Byte) : (s.loadRegs bs).pc = s.pc := rfl
@[simp] theorem State.loadRegs_stack (bs : List Byte) : (s.loadRegs bs).stack = s.stack := rfl
@[simp] theorem State.loadRegs_sp (bs : List Byte) : (s.loadRegs bs).sp = s.sp := rfl
@[simp] theorem State.loadRegs_dt (bs : List Byte) : (s.loadRegs bs).dt = s.dt := rfl
@[simp] theorem State.loadRegs_st (bs : List Byte) : (s.loadRegs bs).st = s.st := rfl
@[simp] theorem State.loadRegs_keyWait (bs : List Byte) : (s.loadRegs bs).keyWait = s.keyWait := rfl
@[simp] theorem State.loadRegs_halted (bs : List Byte) : (s.loadRegs bs).halted = s.halted := rfl
@[simp] theorem State.loadRegs_err (bs : List Byte) : (s.loadRegs bs).err = s.err := rfl
@[simp] theorem State.loadRegs_mem (bs : List Byte) : (s.loadRegs bs).mem = s.mem := rfl
@[simp] theorem State.loadRegs_fb (bs : List Byte) : (s.loadRegs bs).fb = s.fb := rfl
@[simp] theorem State.loadRegs_keys (bs : List Byte) : (s.loadRegs bs).keys = s.keys := rfl
@[simp] theorem State.loadRegs_started (bs : List Byte) : (s.loadRegs bs).started = s.started := rfl
@[simp] theorem State.loadRegs_draws (bs : List Byte) : (s.loadRegs bs).draws = s.draws := rfl
@[simp] theorem State.loadRegs_frees (bs : List Byte) : (s.loadRegs bs).frees = s.frees := rfl
@[simp] theorem State.loadRegs_schedule (bs : List Byte) : (s.loadRegs bs).schedule = s.schedule := rfl
@[simp] theorem State.loadRegs_font (bs : List Byte) : (s.loadRegs bs).font = s.font := rfl

/-! ## countDraw -/

@[simp] theorem State.countDraw_v : (s.countDraw).v = s.v := rfl
@[simp] theorem State.countDraw_idx : (s.countDraw).idx = s.idx := rfl
@[simp] theorem State.countDraw_pc : (s.countDraw).pc = s.pc := rfl
@[simp] theorem State.countDraw_stack : (s.countDraw).stack = s.stack := rfl
@[simp] theorem State.countDraw_sp : (s.countDraw).sp = s.sp := rfl
@[simp] theorem State.countDraw_dt : (s.countDraw).dt = s.dt := rfl
@[simp] theorem State.countDraw_st : (s.countDraw).st = s.st := rfl
@[simp] theorem State.countDraw_keyWait : (s.countDraw).keyWait = s.keyWait := rfl
@[simp] theorem State.countDraw_halted : (s.countDraw).halted = s.halted := rfl
@[simp] theorem State.countDraw_err : (s.countDraw).err = s.err := rfl
@[simp] theorem State.countDraw_mem : (s.countDraw).mem = s.mem := rfl
@[simp] theorem State.countDraw_fb : (s.countDraw).fb = s.fb := rfl
@[simp] theorem State.countDraw_keys : (s.countDraw).keys = s.keys := rfl
@[simp] theorem State.countDraw_started : (s.countDraw).started = s.started := rfl
@[simp] theorem State.countDraw_draws : (s.countDraw).draws = s.draws + 1 := rfl
@[simp] theorem State.countDraw_frees : (s.countDraw).frees = s.frees := rfl
@[simp] theorem State.countDraw_schedule : (s.countDraw).schedule = s.schedule := rfl
@[simp] theorem State.countDraw_font : (s.countDraw).font = s.font := rfl

/-! ## countFrees -/

@[simp] theorem State.countFrees_v (n : Nat) : (s.countFrees n).v = s.v := rfl
@[simp] theorem State.countFrees_idx (n : Nat) : (s.countFrees n).idx = s.idx := rfl
@[simp] theorem State.countFrees_pc (n : Nat) : (s.countFrees n).pc = s.pc := rfl
@[simp] theorem State.countFrees_stack (n : Nat) : (s.countFrees n).stack = s.stack := rfl
@[simp] theorem State.countFrees_sp (n : Nat) : (s.countFrees n).sp = s.sp := rfl
@[simp] theorem State.countFrees_dt (n : Nat) : (s.countFrees n).dt = s.dt := rfl
@[simp] theorem State.countFrees_st (n : Nat) : (s.countFrees n).st = s.st := rfl
@[simp] theorem State.countFrees_keyWait (n : Nat) : (s.countFrees n).keyWait = s.keyWait := rfl
@[simp] theorem State.countFrees_halted (n : Nat) : (s.countFrees n).halted = s.halted := rfl
@[simp] theorem State.countFrees_err (n : Nat) : (s.countFrees n).err = s.err := rfl
@[simp] theorem State.countFrees_mem (n : Nat) : (s.countFrees n).mem = s.mem := rfl
@[simp] theorem State.countFrees_fb (n : Nat) : (s.countFrees n).fb = s.fb := rfl
@[simp] theorem State.countFrees_keys (n : Nat) : (s.countFrees n).keys = s.keys := rfl
@[simp] theorem State.countFrees_started (n : Nat) : (s.countFrees n).started = s.started := rfl
@[simp] theorem State.countFrees_draws (n : Nat) : (s.countFrees n).draws = s.draws := rfl
@[simp] theorem State.countFrees_frees (n : Nat) : (s.countFrees n).frees = s.frees + n := rfl
@[simp] theorem State.countFrees_schedule (n : Nat) : (s.countFrees n).schedule = s.schedule := rfl
@[simp] theorem State.countFrees_font (n : Nat) : (s.countFrees n).font = s.font := rfl

/-! ## halt -/

@[simp] theorem State.halt_v (e : ErrRecord) : (s.halt e).v = s.v := rfl
@[simp] theorem State.halt_idx (e : ErrRecord) : (s.halt e).idx = s.idx := rfl
@[simp] theorem State.halt_pc (e : ErrRecord) : (s.halt e).pc = s.pc := rfl
@[simp] theorem State.halt_stack (e : ErrRecord) : (s.halt e).stack = s.stack := rfl
@[simp] theorem State.halt_sp (e : ErrRecord) : (s.halt e).sp = s.sp := rfl
@[simp] theorem State.halt_dt (e : ErrRecord) : (s.halt e).dt = s.dt := rfl
@[simp] theorem State.halt_st (e : ErrRecord) : (s.halt e).st = s.st := rfl
@[simp] theorem State.halt_keyWait (e : ErrRecord) : (s.halt e).keyWait = s.keyWait := rfl
@[simp] theorem State.halt_halted (e : ErrRecord) : (s.halt e).halted = true := rfl
@[simp] theorem State.halt_err (e : ErrRecord) : (s.halt e).err = e := rfl
@[simp] theorem State.halt_mem (e : ErrRecord) : (s.halt e).mem = s.mem := rfl
@[simp] theorem State.halt_fb (e : ErrRecord) : (s.halt e).fb = s.fb := rfl
@[simp] theorem State.halt_keys (e : ErrRecord) : (s.halt e).keys = s.keys := rfl
@[simp] theorem State.halt_started (e : ErrRecord) : (s.halt e).started = s.started := rfl
@[simp] theorem State.halt_draws (e : ErrRecord) : (s.halt e).draws = s.draws := rfl
@[simp] theorem State.halt_frees (e : ErrRecord) : (s.halt e).frees = s.frees := rfl
@[simp] theorem State.halt_schedule (e : ErrRecord) : (s.halt e).schedule = s.schedule := rfl
@[simp] theorem State.halt_font (e : ErrRecord) : (s.halt e).font = s.font := rfl

/-! ## advance -/

@[simp] theorem State.advance_v : (s.advance).v = s.v := rfl
@[simp] theorem State.advance_idx : (s.advance).idx = s.idx := rfl
@[simp] theorem State.advance_pc : (s.advance).pc = s.pc + 2 := rfl
@[simp] theorem State.advance_stack : (s.advance).stack = s.stack := rfl
@[simp] theorem State.advance_sp : (s.advance).sp = s.sp := rfl
@[simp] theorem State.advance_dt : (s.advance).dt = s.dt := rfl
@[simp] theorem State.advance_st : (s.advance).st = s.st := rfl
@[simp] theorem State.advance_keyWait : (s.advance).keyWait = s.keyWait := rfl
@[simp] theorem State.advance_halted : (s.advance).halted = s.halted := rfl
@[simp] theorem State.advance_err : (s.advance).err = s.err := rfl
@[simp] theorem State.advance_mem : (s.advance).mem = s.mem := rfl
@[simp] theorem State.advance_fb : (s.advance).fb = s.fb := rfl
@[simp] theorem State.advance_keys : (s.advance).keys = s.keys := rfl
@[simp] theorem State.advance_started : (s.advance).started = s.started := rfl
@[simp] theorem State.advance_draws : (s.advance).draws = s.draws := rfl
@[simp] theorem State.advance_frees : (s.advance).frees = s.frees := rfl
@[simp] theorem State.advance_schedule : (s.advance).schedule = s.schedule := rfl
@[simp] theorem State.advance_font : (s.advance).font = s.font := rfl

/-! ## skipNext -/

@[simp] theorem State.skipNext_v : (s.skipNext).v = s.v := rfl
@[simp] theorem State.skipNext_idx : (s.skipNext).idx = s.idx := rfl
@[simp] theorem State.skipNext_pc : (s.skipNext).pc = s.pc + 4 := rfl
@[simp] theorem State.skipNext_stack : (s.skipNext).stack = s.stack := rfl
@[simp] theorem State.skipNext_sp : (s.skipNext).sp = s.sp := rfl
@[simp] theorem State.skipNext_dt : (s.skipNext).dt = s.dt := rfl
@[simp] theorem State.skipNext_st : (s.skipNext).st = s.st := rfl
@[simp] theorem State.skipNext_keyWait : (s.skipNext).keyWait = s.keyWait := rfl
@[simp] theorem State.skipNext_halted : (s.skipNext).halted = s.halted := rfl
@[simp] theorem State.skipNext_err : (s.skipNext).err = s.err := rfl
@[simp] theorem State.skipNext_mem : (s.skipNext).mem = s.mem := rfl
@[simp] theorem State.skipNext_fb : (s.skipNext).fb = s.fb := rfl
@[simp] theorem State.skipNext_keys : (s.skipNext).keys = s.keys := rfl
@[simp] theorem State.skipNext_started : (s.skipNext).started = s.started := rfl
@[simp] theorem State.skipNext_draws : (s.skipNext).draws = s.draws := rfl
@[simp] theorem State.skipNext_frees : (s.skipNext).frees = s.frees := rfl
@[simp] theorem State.skipNext_schedule : (s.skipNext).schedule = s.schedule := rfl
@[simp] theorem State.skipNext_font : (s.skipNext).font = s.font := rfl

/-! ## markStarted -/

@[simp] theorem State.markStarted_v : (s.markStarted).v = s.v := rfl
@[simp] theorem State.markStarted_idx : (s.markStarted).idx = s.idx := rfl
@[simp] theorem State.markStarted_pc : (s.markStarted).pc = s.pc := rfl
@[simp] theorem State.markStarted_stack : (s.markStarted).stack = s.stack := rfl
@[simp] theorem State.markStarted_sp : (s.markStarted).sp = s.sp := rfl
@[simp] theorem State.markStarted_dt : (s.markStarted).dt = s.dt := rfl
@[simp] theorem State.markStarted_st : (s.markStarted).st = s.st := rfl
@[simp] theorem State.markStarted_keyWait : (s.markStarted).keyWait = s.keyWait := rfl
@[simp] theorem State.markStarted_halted : (s.markStarted).halted = s.halted := rfl
@[simp] theorem State.markStarted_err : (s.markStarted).err = s.err := rfl
@[simp] theorem State.markStarted_mem : (s.markStarted).mem = s.mem := rfl
@[simp] theorem State.markStarted_fb : (s.markStarted).fb = s.fb := rfl
@[simp] theorem State.markStarted_keys : (s.markStarted).keys = s.keys := rfl
@[simp] theorem State.markStarted_started : (s.markStarted).started = true := rfl
@[simp] theorem State.markStarted_draws : (s.markStarted).draws = s.draws := rfl
@[simp] theorem State.markStarted_frees : (s.markStarted).frees = s.frees := rfl
@[simp] theorem State.markStarted_schedule : (s.markStarted).schedule = s.schedule := rfl
@[simp] theorem State.markStarted_font : (s.markStarted).font = s.font := rfl

end Sys2Proof.Machine
end

