-- ==== Sys2Proof/Laws/Ops.lean ====
section
/-! SUPPORT. One specification lemma per shared operation of Machine/Ops.lean: registers, several registers at once,
memory accesses, the fetch, the keypad, and what raising a fatal error leaves. -/

namespace Sys2Proof.Machine

/-! ## Registers -/

@[simp] theorem State.getV_setV (s : State) (x r : Reg) (b : Byte) :
    (s.setV x b).getV r = if r = x then b else s.getV r := by
  simp only [State.getV, State.setV, Fin.getElem_fin, Vector.getElem_set]
  by_cases h : r = x
  · subst h; simp
  · rw [if_neg (fun e => h (Fin.ext e.symm)), if_neg h]

/-- Two states with the same registers read the same. -/
theorem State.getV_congr {s t : State} (h : t.v = s.v) (r : Reg) : t.getV r = s.getV r := by
  simp only [State.getV, h]

@[simp] theorem State.getV_setIdx (s : State) (w : Word) (r : Reg) : (s.setIdx w).getV r = s.getV r := rfl
@[simp] theorem State.getV_setPc (s : State) (w : Word) (r : Reg) : (s.setPc w).getV r = s.getV r := rfl
@[simp] theorem State.getV_advance (s : State) (r : Reg) : s.advance.getV r = s.getV r := rfl
@[simp] theorem State.getV_skipNext (s : State) (r : Reg) : s.skipNext.getV r = s.getV r := rfl
@[simp] theorem State.getV_setDt (s : State) (b : Byte) (r : Reg) : (s.setDt b).getV r = s.getV r := rfl
@[simp] theorem State.getV_setSt (s : State) (b : Byte) (r : Reg) : (s.setSt b).getV r = s.getV r := rfl
@[simp] theorem State.getV_setKeyWait (s : State) (b : Bool) (r : Reg) : (s.setKeyWait b).getV r = s.getV r := rfl
@[simp] theorem State.getV_setFb (s : State) (f : Framebuffer) (r : Reg) : (s.setFb f).getV r = s.getV r := rfl
@[simp] theorem State.getV_setMem (s : State) (m : Memory) (r : Reg) : (s.setMem m).getV r = s.getV r := rfl
@[simp] theorem State.getV_drop (s : State) (r : Reg) : s.drop.getV r = s.getV r := rfl
@[simp] theorem State.getV_push (s : State) (w : Word) (h : s.sp.val < Config.stackDepth) (r : Reg) :
    (s.push w h).getV r = s.getV r := rfl
@[simp] theorem State.getV_countDraw (s : State) (r : Reg) : s.countDraw.getV r = s.getV r := rfl
@[simp] theorem State.getV_countFrees (s : State) (n : Nat) (r : Reg) : (s.countFrees n).getV r = s.getV r := rfl
@[simp] theorem State.getV_halt (s : State) (e : ErrRecord) (r : Reg) : (s.halt e).getV r = s.getV r := rfl
@[simp] theorem State.getV_markStarted (s : State) (r : Reg) : s.markStarted.getV r = s.getV r := rfl

/-- A skip is one of the two PC updates. -/
theorem State.skipIf_eq (s : State) (taken : Bool) :
    s.skipIf taken = s.setPc (if taken then s.pc + 4 else s.pc + 2) := by
  cases taken <;> rfl

/-! ## Several registers at once -/

theorem getElem_loadFrom (v : Vector Byte 16) (k : Nat) (bs : List Byte) (r : Nat) (hr : r < 16) :
    (loadFrom v k bs)[r] = if h : k ≤ r ∧ r - k < bs.length then bs[r - k]'h.2 else v[r] := by
  induction bs generalizing v k with
  | nil => simp [loadFrom]
  | cons b bs ih =>
    rw [loadFrom, ih, Vector.getElem_setIfInBounds]
    by_cases hk : k = r
    · subst hk; simp
    · by_cases hlt : k < r
      · have e : r - k = (r - (k + 1)) + 1 := by omega
        by_cases hb : r - (k + 1) < bs.length
        · rw [dif_pos ⟨by omega, hb⟩, dif_pos ⟨by omega, by simp only [List.length_cons]; omega⟩]
          simp only [e, List.getElem_cons_succ]
        · rw [dif_neg (fun h => hb h.2), if_neg hk, dif_neg]
          simp only [List.length_cons]; omega
      · rw [dif_neg (by omega), if_neg hk, dif_neg (by omega)]

/-- Registers V[0], V[1], ... after a load of several: the loaded byte, or the old one past the last. -/
theorem State.getV_loadRegs (s : State) (bs : List Byte) (r : Reg) :
    (s.loadRegs bs).getV r = if h : r.val < bs.length then bs[r.val] else s.getV r := by
  simp only [State.getV, State.loadRegs, Fin.getElem_fin, getElem_loadFrom]
  simp

theorem State.length_regsUpTo (s : State) (x : Reg) : (s.regsUpTo x).length = x.val + 1 := by
  simp only [State.regsUpTo, List.length_take, Vector.length_toList]
  omega

theorem State.getElem_regsUpTo (s : State) (x : Reg) (k : Nat) (hk : k < (s.regsUpTo x).length) :
    (s.regsUpTo x)[k] = s.getV ⟨k, by rw [State.length_regsUpTo] at hk; omega⟩ := by
  simp [State.regsUpTo, State.getV]

/-! ## Memory accesses -/

theorem memRead_valid {a : Nat} (h : a ≤ 0xFFF) (s : State) : memRead a s = .ok (Memory.read s.mem a) := by
  simp only [memRead]; rw [if_neg (by omega)]

theorem memRead_invalid {a : Nat} (h : 0xFFF < a) (s : State) : memRead a s = .error .outOfBoundsAccess := by
  simp only [memRead]; rw [if_pos h]

theorem memWrite_valid {a : Nat} (h : a ≤ 0xFFF) (b : Byte) (s : State) :
    memWrite a b s = .ok (s.setMem (Memory.write s.mem a b)) := by
  simp only [memWrite]; rw [if_neg (by omega)]

theorem memWrite_invalid {a : Nat} (h : 0xFFF < a) (b : Byte) (s : State) :
    memWrite a b s = .error .outOfBoundsAccess := by
  simp only [memWrite]; rw [if_pos h]

/-- The bytes at `n` addresses from `a`. -/
def bytesAt (m : Memory) (a n : Nat) : List Byte := (List.range n).map (fun k => Memory.read m (a + k))

@[simp] theorem length_bytesAt (m : Memory) (a n : Nat) : (bytesAt m a n).length = n := by simp [bytesAt]

@[simp] theorem getElem_bytesAt (m : Memory) (a n k : Nat) (h : k < (bytesAt m a n).length) :
    (bytesAt m a n)[k] = Memory.read m (a + k) := by simp [bytesAt]

theorem bytesAt_succ (m : Memory) (a n : Nat) :
    bytesAt m a (n + 1) = Memory.read m a :: bytesAt m (a + 1) n := by
  simp only [bytesAt, List.range_succ_eq_map, List.map_cons, List.map_map, Nat.add_zero]
  congr 1
  refine List.map_congr_left fun k _ => ?_
  simp only [Function.comp, Nat.succ_eq_add_one]
  congr 1; omega

/-- Reading several bytes succeeds when every address is valid, and gives them in order. -/
theorem readBytes_valid (s : State) {a n : Nat} (h : n = 0 ∨ a + n ≤ 0x1000) :
    readBytes a n s = .ok (bytesAt s.mem a n) := by
  induction n generalizing a with
  | zero => rfl
  | succ n ih =>
    rw [readBytes, memRead_valid (by omega), ih (by omega), bytesAt_succ]

/-- Reading several bytes raises OutOfBoundsAccess when some address is invalid. -/
theorem readBytes_invalid (s : State) {a n : Nat} (hn : n ≠ 0) (h : 0x1000 < a + n) :
    readBytes a n s = .error .outOfBoundsAccess := by
  induction n generalizing a with
  | zero => exact absurd rfl hn
  | succ n ih =>
    by_cases ha : a ≤ 0xFFF
    · rw [readBytes, memRead_valid ha, ih (by omega) (by omega)]
    · rw [readBytes, memRead_invalid (by omega)]

/-- Storing several bytes succeeds when every address is valid. -/
theorem storeBytes_valid (s : State) {a : Nat} {bs : List Byte} (h : bs = [] ∨ a + bs.length ≤ 0x1000) :
    storeBytes a bs s = .ok (s.setMem (Memory.writeBytes s.mem a bs)) := by
  induction bs generalizing a s with
  | nil => rfl
  | cons b bs ih =>
    have hl : a + (bs.length + 1) ≤ 0x1000 := by
      rcases h with h | h
      · cases h
      · rwa [List.length_cons] at h
    rw [storeBytes, memWrite_valid (by omega)]
    have := ih (s.setMem (Memory.write s.mem a b)) (a := a + 1) (Or.inr (by omega))
    exact this

/-- Storing several bytes raises OutOfBoundsAccess when some address is invalid. -/
theorem storeBytes_invalid (s : State) {a : Nat} {bs : List Byte} (hb : bs ≠ []) (h : 0x1000 < a + bs.length) :
    storeBytes a bs s = .error .outOfBoundsAccess := by
  induction bs generalizing a s with
  | nil => exact absurd rfl hb
  | cons b bs ih =>
    rw [List.length_cons] at h
    by_cases ha : a ≤ 0xFFF
    · rw [storeBytes, memWrite_valid ha]
      exact ih _ (by rintro rfl; simp at h; omega) (by omega)
    · rw [storeBytes, memWrite_invalid (by omega)]

/-- A store at valid addresses answers the state with the bytes in memory and PC advanced. -/
theorem storeAndAdvance_valid (op : Word) (s : State) {a : Nat} {bs : List Byte} (h : a + bs.length ≤ 0x1000) :
    storeAndAdvance op a bs s = .next (s.setMem (Memory.writeBytes s.mem a bs)).advance := by
  rw [storeAndAdvance, storeBytes_valid s (Or.inr h)]

/-- A store that meets an invalid address raises OutOfBoundsAccess over unspecified bytes. -/
theorem storeAndAdvance_invalid (op : Word) (s : State) {a : Nat} {bs : List Byte} (hb : bs ≠ [])
    (h : 0x1000 < a + bs.length) :
    storeAndAdvance op a bs s = .next (raise .outOfBoundsAccess op (s.forgetMem a bs.length)) := by
  rw [storeAndAdvance, storeBytes_invalid s hb h]

/-- The fetch succeeds when both bytes are valid, and the byte at PC is the high one. -/
theorem fetchWord_valid (s : State) (h : s.pc.toNat + 1 ≤ 0xFFF) :
    fetchWord s = .ok (Memory.read s.mem s.pc.toNat ++ Memory.read s.mem (s.pc.toNat + 1)) := by
  rw [fetchWord, memRead_valid (by omega), memRead_valid h]

/-- The fetch raises OutOfBoundsAccess when PC or PC + 1 is invalid. -/
theorem fetchWord_invalid (s : State) (h : 0xFFF < s.pc.toNat + 1) :
    fetchWord s = .error .outOfBoundsAccess := by
  by_cases hp : s.pc.toNat ≤ 0xFFF
  · rw [fetchWord, memRead_valid hp, memRead_invalid h]
  · rw [fetchWord, memRead_invalid (by omega)]

/-! ## The keypad -/

theorem keyDown_of_lt {k : Nat} (h : k < 16) (s : State) : keyDown k s = s.keys[k] := by
  rw [keyDown, dif_pos h]

theorem keyDown_congr {s t : State} (h : t.keys = s.keys) (k : Nat) : keyDown k t = keyDown k s := by
  simp only [keyDown, h]

theorem anyKey_congr {s t : State} (h : t.keys = s.keys) : anyKey t = anyKey s := by
  simp only [anyKey, keyDown, h]

/-- No key is found exactly when none is down. -/
theorem anyKey_none (s : State) : anyKey s = none ↔ ∀ k < 16, keyDown k s = false := by
  simp [anyKey]

/-- The key found is down, a key of the keypad, and the lowest such. -/
theorem anyKey_some {s : State} {k : Nat} (h : anyKey s = some k) :
    k < 16 ∧ keyDown k s = true ∧ ∀ j < k, keyDown j s = false := by
  rw [anyKey, List.find?_range_eq_some] at h
  simp only [List.mem_range, Bool.not_eq_eq_eq_not, Bool.not_true] at h
  exact ⟨h.2.1, h.1, h.2.2⟩

/-! ## Fatal errors -/

@[simp] theorem raise_eq (f : Fault) (op : Word) (s : State) :
    raise f op s = s.halt { kind := some f, pc := s.pc, opcode := op, opcodeValid := true } := rfl

@[simp] theorem length_freeBytes (s : State) (n : Nat) : (s.freeBytes n).length = n := by simp [State.freeBytes]

theorem validCount_le (a n : Nat) : validCount a n ≤ n := Nat.min_le_left _ _

theorem add_validCount_le {a n : Nat} (h : a ≤ 0x1000) : a + validCount a n ≤ 0x1000 := by
  simp only [validCount]; omega

theorem State.forgetMem_eq (s : State) (a n : Nat) :
    s.forgetMem a n =
      (s.setMem (Memory.writeBytes s.mem a (s.freeBytes (validCount a n)))).countFrees (validCount a n) := rfl

/-- Forgetting stored bytes keeps the canonical form. -/
theorem State.wf_forgetMem {s : State} (hs : Memory.wf s.mem = true) (a n : Nat) :
    Memory.wf (s.forgetMem a n).mem = true := by
  rw [State.forgetMem_eq, State.countFrees_mem, State.setMem_mem]
  by_cases h : a ≤ 0x1000
  · exact Memory.wf_writeBytes hs _ (by rw [length_freeBytes]; exact add_validCount_le h)
  · have : validCount a n = 0 := by simp only [validCount]; omega
    rw [this]; exact hs

/-- Forgetting stored bytes leaves every address outside them alone. -/
theorem State.read_forgetMem_outside (s : State) {a n c : Nat} (h : c < a ∨ a + n ≤ c) :
    Memory.read (s.forgetMem a n).mem c = Memory.read s.mem c := by
  rw [State.forgetMem_eq, State.countFrees_mem, State.setMem_mem, Memory.read_writeBytes_outside]
  rw [length_freeBytes]; have := validCount_le a n; omega

/-- Forgetting loaded registers is a load of unspecified bytes, or nothing. -/
theorem State.forgetRegs_cases (s : State) (a : Nat) (x : Reg) :
    (0xFFF < a ∧ s.forgetRegs a x = s) ∨
      (a ≤ 0xFFF ∧ s.forgetRegs a x = (s.loadRegs (s.freeBytes (x.val + 1))).countFrees (x.val + 1)) := by
  unfold State.forgetRegs
  split
  · exact .inl ⟨by omega, rfl⟩
  · exact .inr ⟨by omega, rfl⟩

/-- Forgetting loaded registers leaves the registers after V[x] alone. -/
theorem State.getV_forgetRegs_after (s : State) (a : Nat) {x r : Reg} (h : x < r) :
    (s.forgetRegs a x).getV r = s.getV r := by
  obtain ⟨-, e⟩ | ⟨-, e⟩ := State.forgetRegs_cases s a x
  · rw [e]
  · rw [e, State.getV_countFrees, State.getV_loadRegs, dif_neg]
    rw [length_freeBytes]; have : x.val < r.val := h; omega

end Sys2Proof.Machine
end

