-- ==== Sys2Proof/Laws/Display.lean ====
section
/-! SUPPORT. What the sprite renderer does, pixel by pixel (43_display.md R101-R103): one lemma per loop. -/

namespace Sys2Proof.Machine

/-- A pixel of a framebuffer; none outside the frame. -/
def fbAt (f : Framebuffer) (x y : Nat) : Bool :=
  if h : x < 64 ∧ y < 32 then (f[y]'h.2)[x]'h.1 else false

theorem fbAt_inside (f : Framebuffer) (x : Fin 64) (y : Fin 32) : fbAt f x y = f[y][x] := by
  simp [fbAt]

theorem fbAt_outside (f : Framebuffer) {x y : Nat} (h : ¬ (x < 64 ∧ y < 32)) : fbAt f x y = false := dif_neg h

/-- Framebuffers with equal pixels are equal data. -/
theorem fb_ext {f g : Framebuffer} (h : ∀ (x : Fin 64) (y : Fin 32), f[y][x] = g[y][x]) : f = g := by
  refine Vector.ext fun y hy => Vector.ext fun x hx => ?_
  exact h ⟨x, hx⟩ ⟨y, hy⟩

theorem fbAt_clearedFb (x y : Nat) : fbAt clearedFb x y = false := by
  by_cases h : x < 64 ∧ y < 32
  · simp [fbAt, clearedFb]
  · exact fbAt_outside _ h

/-- One sprite bit changes only its own pixel. -/
theorem fbAt_drawBit (x y : Nat) (bit : Bool) (c : Canvas) (x' y' : Nat) :
    fbAt (drawBit x y bit c).1 x' y' =
      if x' = x ∧ y' = y ∧ x' < 64 ∧ y' < 32 then (fbAt c.1 x' y' ^^ bit) else fbAt c.1 x' y' := by
  by_cases hin : x' < 64 ∧ y' < 32
  · unfold drawBit
    by_cases h : x < 64 ∧ y < 32
    · rw [dif_pos h]
      simp only [fbAt, dif_pos hin, Vector.getElem_set]
      by_cases hy : y = y'
      · subst hy
        by_cases hx : x = x'
        · subst hx; simp [h]
        · have : ¬ x' = x := fun e => hx e.symm
          simp [hx, this]
      · have : ¬ y' = y := fun e => hy e.symm
        simp [hy, this]
    · rw [dif_neg h, if_neg]
      rintro ⟨rfl, rfl, h'⟩; exact h h'
  · rw [if_neg (fun h => hin h.2.2), fbAt_outside _ hin, fbAt_outside _ hin]

/-- One sprite bit collides when it is on over a pixel that is on, inside the frame. -/
theorem drawBit_snd (x y : Nat) (bit : Bool) (c : Canvas) :
    (drawBit x y bit c).2 = (c.2 || (fbAt c.1 x y && bit)) := by
  unfold drawBit fbAt
  split
  · rfl
  · simp

/-- The bit of a sprite row that falls on column x', among its first `n` columns. -/
def rowBit (x0 : Nat) (row : Byte) (n x' : Nat) : Bool :=
  decide (x0 ≤ x' ∧ x' < x0 + n) && row.getLsbD (7 - (x' - x0))

theorem rowBit_zero (x0 : Nat) (row : Byte) (x' : Nat) : rowBit x0 row 0 x' = false := by
  unfold rowBit
  rw [decide_eq_false (by omega), Bool.false_and]

theorem fbAt_drawColumns (x0 y : Nat) (row : Byte) (n : Nat) (c : Canvas) (x' y' : Nat) :
    fbAt (drawColumns x0 y row n c).1 x' y' =
      (fbAt c.1 x' y' ^^ (decide (y' = y ∧ x' < 64 ∧ y' < 32) && rowBit x0 row n x')) := by
  induction n with
  | zero => rw [rowBit_zero, Bool.and_false, Bool.xor_false]; rfl
  | succ n ih =>
    rw [drawColumns, fbAt_drawBit, ih]
    by_cases hx : x' = x0 + n
    · subst hx
      by_cases hf : y' = y ∧ x0 + n < 64 ∧ y' < 32
      · obtain ⟨rfl, hx, hy⟩ := hf; simp [rowBit, hx, hy]
      · rw [if_neg (by tauto), decide_eq_false (by tauto), Bool.false_and, Bool.false_and]
    · have e : rowBit x0 row (n + 1) x' = rowBit x0 row n x' := by
        unfold rowBit
        congr 1
        exact decide_eq_decide.2 (by omega)
      rw [if_neg (fun h => hx h.1), e]

theorem drawColumns_snd (x0 y : Nat) (row : Byte) (n : Nat) (c : Canvas) :
    (drawColumns x0 y row n c).2 = true ↔
      c.2 = true ∨ ∃ x', fbAt c.1 x' y = true ∧ rowBit x0 row n x' = true := by
  induction n with
  | zero => simp [drawColumns, rowBit_zero]
  | succ n ih =>
    rw [drawColumns, drawBit_snd, Bool.or_eq_true, ih, fbAt_drawColumns]
    have e0 : rowBit x0 row n (x0 + n) = false := by simp [rowBit]
    rw [e0]
    simp only [Bool.and_false, Bool.xor_false, Bool.and_eq_true]
    constructor
    · rintro ((h | ⟨x', hf, hr⟩) | ⟨hf, hr⟩)
      · exact .inl h
      · refine .inr ⟨x', hf, ?_⟩
        simp only [rowBit, Bool.and_eq_true, decide_eq_true_eq] at hr ⊢
        exact ⟨by omega, hr.2⟩
      · refine .inr ⟨x0 + n, hf, ?_⟩
        simp [rowBit, hr]
    · rintro (h | ⟨x', hf, hr⟩)
      · exact .inl (.inl h)
      · by_cases hx : x' = x0 + n
        · subst hx
          refine .inr ⟨hf, ?_⟩
          simpa [rowBit] using hr
        · refine .inl (.inr ⟨x', hf, ?_⟩)
          simp only [rowBit, Bool.and_eq_true, decide_eq_true_eq] at hr ⊢
          exact ⟨by omega, hr.2⟩

/-- The bit of a sprite at (x0, y0) that falls on pixel (x', y'): the sprite's row y' - y0, its column x' - x0. -/
def spriteAt (x0 y0 : Nat) (rows : List Byte) (x' y' : Nat) : Bool :=
  decide (y0 ≤ y') && rowBit x0 (rows.getD (y' - y0) 0) 8 x'

theorem spriteAt_nil (x0 y0 x' y' : Nat) : spriteAt x0 y0 [] x' y' = false := by
  simp [spriteAt, rowBit]

theorem spriteAt_cons (x0 y0 : Nat) (row : Byte) (rows : List Byte) (x' y' : Nat) :
    spriteAt x0 y0 (row :: rows) x' y' =
      if y' = y0 then rowBit x0 row 8 x' else spriteAt x0 (y0 + 1) rows x' y' := by
  unfold spriteAt
  by_cases h : y' = y0
  · subst h; simp
  · rw [if_neg h]
    by_cases hl : y0 < y'
    · obtain ⟨k, rfl⟩ : ∃ k, y' = y0 + 1 + k := ⟨y' - (y0 + 1), by omega⟩
      have e1 : y0 + 1 + k - y0 = k + 1 := by omega
      have e2 : y0 + 1 + k - (y0 + 1) = k := by omega
      have d1 : decide (y0 ≤ y0 + 1 + k) = true := decide_eq_true (by omega)
      have d2 : decide (y0 + 1 ≤ y0 + 1 + k) = true := decide_eq_true (by omega)
      rw [e1, e2, d1, d2, List.getD_cons_succ]
    · have d1 : decide (y0 ≤ y') = false := decide_eq_false (by omega)
      have d2 : decide (y0 + 1 ≤ y') = false := decide_eq_false (by omega)
      rw [d1, d2]; rfl

/-- A draw XORs into each pixel of the frame the sprite bit that falls on it. -/
theorem fbAt_drawRows (x0 y0 : Nat) (rows : List Byte) (c : Canvas) (x' y' : Nat) :
    fbAt (drawRows x0 y0 rows c).1 x' y' =
      (fbAt c.1 x' y' ^^ (decide (x' < 64 ∧ y' < 32) && spriteAt x0 y0 rows x' y')) := by
  induction rows generalizing y0 c with
  | nil => simp [drawRows, spriteAt_nil]
  | cons row rows ih =>
    rw [drawRows, ih, drawRow, fbAt_drawColumns, spriteAt_cons]
    by_cases hy : y' = y0
    · subst hy
      have e0 : spriteAt x0 (y' + 1) rows x' y' = false := by simp [spriteAt]
      simp [e0]
    · simp [hy]

/-- A draw collides exactly when some sprite bit that is on falls on a pixel that is on. -/
theorem drawRows_snd (x0 y0 : Nat) (rows : List Byte) (c : Canvas) :
    (drawRows x0 y0 rows c).2 = true ↔
      c.2 = true ∨ ∃ x' y', fbAt c.1 x' y' = true ∧ spriteAt x0 y0 rows x' y' = true := by
  induction rows generalizing y0 c with
  | nil => simp [drawRows, spriteAt_nil]
  | cons row rows ih =>
    rw [drawRows, ih, drawRow, drawColumns_snd]
    constructor
    · rintro ((h | ⟨x', hf, hr⟩) | ⟨x', y', hf, hr⟩)
      · exact .inl h
      · exact .inr ⟨x', y0, hf, by rw [spriteAt_cons, if_pos rfl]; exact hr⟩
      · have hy : y' ≠ y0 := by rintro rfl; simp [spriteAt] at hr
        rw [fbAt_drawColumns] at hf
        refine .inr ⟨x', y', by simpa [hy] using hf, by rw [spriteAt_cons, if_neg hy]; exact hr⟩
    · rintro (h | ⟨x', y', hf, hr⟩)
      · exact .inl (.inl h)
      · rw [spriteAt_cons] at hr
        by_cases hy : y' = y0
        · subst hy
          rw [if_pos rfl] at hr
          exact .inl (.inr ⟨x', hf, hr⟩)
        · rw [if_neg hy] at hr
          refine .inr ⟨x', y', ?_, hr⟩
          rw [fbAt_drawColumns]
          simpa [hy] using hf

/-- A faulting draw leaves every part but FB, VF and the count of unspecified values alone. -/
theorem State.forgetDraw_eq (s : State) (x0 y0 a n : Nat) :
    s.forgetDraw x0 y0 a n =
      ((s.setFb (drawRows x0 y0 (s.freeBytes (validCount a n)) (s.fb, false)).1).setV regF
        (Config.unspecifiedByte (s.frees + validCount a n))).countFrees (validCount a n + 1) := rfl

end Sys2Proof.Machine
end

