-- ==== Sys2Proof/WellFormed.lean ====
section
/-! DEFINITION. Which terms are well-formed. Every instruction term is: the types of its fields are exactly the
fields' widths and "every value is legal" (30_encoding.md R59), so there is nothing to check. A transaction can be
ill-formed in two ways, which the interface refuses: a key number outside 0..15 (60_exceptions.md R123) and a ROM
that does not fit (70_reset_and_hazards.md R132). -/

namespace Sys2Proof

/-- The largest ROM is 3584 bytes (R132). -/
abbrev maxRomBytes : Nat := 3584

/-- A transaction the interface can take: its key number is one of the keypad's, its ROM fits. -/
def Transaction.wf : Transaction → Bool
  | .step => true
  | .tick => true
  | .setKey k _ => decide (k ≤ 15)
  | .load bytes => decide (bytes.length ≤ maxRomBytes)
  | .reset => true

end Sys2Proof
end

