-- ==== Sys2Proof/Laws/Transactions.lean ====
section
/-! SUPPORT. What one step can do, said once: which transaction runs, and what STEP does with the fetched word
(30_encoding.md R60; 60_exceptions.md R112). -/

namespace Sys2Proof.Machine

theorem stepTransaction_halted {s : State} (h : s.halted = true) : stepTransaction s = .next s := by
  rw [stepTransaction, if_pos h]

theorem stepTransaction_running {s : State} (h : s.halted = false) :
    stepTransaction s = fetchAndRun s.markStarted := by
  rw [stepTransaction, h]; rfl

/-- A fetch at an invalid PC raises OutOfBoundsAccess without an opcode. -/
theorem fetchAndRun_invalid {s : State} (h : 0xFFF < s.pc.toNat + 1) :
    fetchAndRun s = .next (raiseAtFetch .outOfBoundsAccess s) := by
  rw [fetchAndRun, fetchWord_invalid s h]

/-- A fetch at a valid PC decodes the two bytes there. -/
theorem fetchAndRun_valid {s : State} (h : s.pc.toNat + 1 ≤ 0xFFF) :
    fetchAndRun s = runWord (wordOfBytes (Memory.read s.mem s.pc.toNat) (Memory.read s.mem (s.pc.toNat + 1))) s := by
  rw [fetchAndRun, fetchWord_valid s h]; rfl

theorem runWord_some {w : Word} {i : Instr} (h : decodeWord w = some i) (s : State) : runWord w s = exec i s := by
  rw [runWord, h]

theorem runWord_none {w : Word} (h : decodeWord w = none) (s : State) :
    runWord w s = .next (raise .unknownOpcode w s) := by
  rw [runWord, h]

/-- A step whose next transaction is a STEP is that STEP. -/
theorem step_of_stepDue {s u : State} (h : StepDue s u) : step s = stepTransaction u := by
  rcases h with ⟨h, rfl⟩ | ⟨rest, h, rfl⟩
  · rw [step, runNext, h]
  · rw [step, runNext, h]; rfl

/-- A step is the transaction that is due. -/
theorem step_of_due {t : Transaction} {s u : State} (h : TransactionDue t s u) : step s = transact t u := by
  rcases h with ⟨rfl, h, rfl⟩ | ⟨rest, h, rfl⟩
  · rw [step, runNext, h]; rfl
  · rw [step, runNext, h]

/-- Some transaction is due in every state. -/
theorem exists_due (s : State) : ∃ t u, TransactionDue t s u := by
  rcases h : s.schedule with _ | ⟨t, rest⟩
  · exact ⟨.step, s, .inl ⟨rfl, h, rfl⟩⟩
  · exact ⟨t, _, .inr ⟨rest, h, rfl⟩⟩

/-- A due transaction's state differs in the schedule only. -/
theorem due_eq {t : Transaction} {s u : State} (h : TransactionDue t s u) : u = { s with schedule := u.schedule } := by
  rcases h with ⟨_, _, rfl⟩ | ⟨_, _, rfl⟩ <;> rfl

/-- Everything STEP can do: nothing while halted, a fetch fault, UnknownOpcode, or the decoded instruction. -/
theorem stepTransaction_cases (s : State) :
    (s.halted = true ∧ stepTransaction s = .next s) ∨
    (s.halted = false ∧ 0xFFF < s.pc.toNat + 1 ∧
      stepTransaction s = .next (raiseAtFetch .outOfBoundsAccess s.markStarted)) ∨
    (s.halted = false ∧ s.pc.toNat + 1 ≤ 0xFFF ∧ ∃ w,
      w = wordOfBytes (Memory.read s.mem s.pc.toNat) (Memory.read s.mem (s.pc.toNat + 1)) ∧
      ((decodeWord w = none ∧ stepTransaction s = .next (raise .unknownOpcode w s.markStarted)) ∨
        ∃ i, decodeWord w = some i ∧ stepTransaction s = exec i s.markStarted)) := by
  cases hh : s.halted with
  | true => exact .inl ⟨rfl, stepTransaction_halted hh⟩
  | false =>
    refine .inr ?_
    rw [stepTransaction_running hh]
    by_cases hp : s.pc.toNat + 1 ≤ 0xFFF
    · refine .inr ⟨rfl, hp, _, rfl, ?_⟩
      rw [fetchAndRun_valid (s := s.markStarted) hp]
      cases hd : decodeWord (wordOfBytes (Memory.read s.mem s.pc.toNat) (Memory.read s.mem (s.pc.toNat + 1))) with
      | none => exact .inl ⟨rfl, runWord_none hd _⟩
      | some i => exact .inr ⟨i, rfl, runWord_some hd _⟩
    · exact .inl ⟨rfl, by omega, fetchAndRun_invalid (s := s.markStarted) (by simpa using hp)⟩

/-- The interface refuses exactly the ill-formed SET_KEYs (R123). -/
theorem setKey_refused_iff (k : Nat) (b : Bool) (s : State) :
    (setKey k b s).1 = .refused ↔ Transaction.wf (.setKey k b) = false := by
  by_cases h : k < 16
  · simp [setKey, h, Transaction.wf]; omega
  · simp [setKey, h, Transaction.wf]; omega

/-- Before the first STEP, LOAD answers RomTooLarge exactly for the ill-formed images (R132). -/
theorem load_romTooLarge_iff (bytes : List Byte) (s : State) (h : s.started = false) :
    (load bytes s).1 = .romTooLarge ↔ Transaction.wf (.load bytes) = false := by
  by_cases hl : Config.programBase + bytes.length > 0x1000
  · have h' : ¬ bytes.length ≤ maxRomBytes := by simp only [Config.programBase, maxRomBytes] at hl ⊢; omega
    simp [load, h, hl, Transaction.wf, h']
  · have h' : bytes.length ≤ maxRomBytes := by simp only [Config.programBase, maxRomBytes] at hl ⊢; omega
    simp [load, h, hl, Transaction.wf, h']

theorem run_zero (s : State) : Host.Core.run core 0 s = .next s := rfl

/-- A run goes on from what its first step answers. -/
theorem run_succ {s t : State} (h : step s = .next t) (n : Nat) :
    Host.Core.run core (n + 1) s = Host.Core.run core n t := by
  have h' : core.step s = .next t := h
  simp only [Host.Core.run, h']

/-- What holds at reset under every schedule and is kept by every step holds of every reachable state. -/
theorem Reachable.induct {P : State → Prop}
    (base : ∀ font schedule, P { State.resetWith font with schedule := schedule })
    (kept : ∀ s t, P s → step s = .next t → P t) {s : State} (h : Reachable s) : P s := by
  induction h with
  | reset font schedule => exact base font schedule
  | afterStep _ hst ih => exact kept _ _ ih hst

end Sys2Proof.Machine
end

