-- ==== Sys2Proof/Laws/Exec.lean ====
section
/-! SUPPORT. The meaning of each instruction that tests something, case by case: what `exec` answers when its test
succeeds and when it fails (the others are equations by definition). -/

namespace Sys2Proof.Machine

theorem execRet_entry {s : State} (h : 0 < s.sp.val) : exec .ret s = .next (s.drop.setPc (s.top h)) := dif_pos h

theorem execRet_empty {s : State} (h : s.sp.val = 0) :
    exec .ret s = .next (raise .stackUnderflow (encode .ret) s) := dif_neg (by omega)

theorem execCall_room (nnn : Addr) {s : State} (h : s.sp.val < Config.stackDepth) :
    exec (.call nnn) s = .next ((s.push (s.pc + 2) h).setPc (zextAddr nnn)) := dif_pos h

theorem execCall_full (nnn : Addr) {s : State} (h : s.sp.val = Config.stackDepth) :
    exec (.call nnn) s = .next (raise .stackOverflow (encode (.call nnn)) s) := dif_neg (by omega)

theorem length_decimalDigits (b : Byte) : (decimalDigits b).length = 3 := rfl

theorem execLdB_valid (x : Reg) {s : State} (h : s.idx.toNat + 2 ≤ 0xFFF) :
    exec (.ldB x) s =
      .next (s.setMem (Memory.writeBytes s.mem s.idx.toNat (decimalDigits (s.getV x)))).advance :=
  storeAndAdvance_valid _ s (by rw [length_decimalDigits]; simp only [indexBase]; omega)

theorem execLdB_invalid (x : Reg) {s : State} (h : 0xFFF < s.idx.toNat + 2) :
    exec (.ldB x) s = .next (raise .outOfBoundsAccess (encode (.ldB x)) (s.forgetMem s.idx.toNat 3)) :=
  storeAndAdvance_invalid _ s (List.cons_ne_nil _ _) (by rw [length_decimalDigits]; simp only [indexBase]; omega)

theorem execStRegs_valid (x : Reg) {s : State} (h : s.idx.toNat + x.val ≤ 0xFFF) :
    exec (.stRegs x) s = .next (s.setMem (Memory.writeBytes s.mem s.idx.toNat (s.regsUpTo x))).advance :=
  storeAndAdvance_valid _ s (by rw [State.length_regsUpTo]; simp only [indexBase]; omega)

theorem execStRegs_invalid (x : Reg) {s : State} (h : 0xFFF < s.idx.toNat + x.val) :
    exec (.stRegs x) s =
      .next (raise .outOfBoundsAccess (encode (.stRegs x)) (s.forgetMem s.idx.toNat (x.val + 1))) := by
  have := storeAndAdvance_invalid (encode (.stRegs x)) s (a := s.idx.toNat) (bs := s.regsUpTo x)
    (List.ne_nil_of_length_pos (by rw [State.length_regsUpTo]; omega))
    (by rw [State.length_regsUpTo]; omega)
  rwa [State.length_regsUpTo] at this

theorem execLdRegs_valid (x : Reg) {s : State} (h : s.idx.toNat + x.val ≤ 0xFFF) :
    exec (.ldRegs x) s = .next (s.loadRegs (bytesAt s.mem s.idx.toNat (x.val + 1))).advance := by
  rw [exec, execLdRegs, indexBase, readBytes_valid s (.inr (by omega))]

theorem execLdRegs_invalid (x : Reg) {s : State} (h : 0xFFF < s.idx.toNat + x.val) :
    exec (.ldRegs x) s =
      .next (raise .outOfBoundsAccess (encode (.ldRegs x)) (s.forgetRegs s.idx.toNat x)) := by
  rw [exec, execLdRegs, indexBase, readBytes_invalid s (by omega) (by omega)]

/-- The canvas a draw at (V[X], V[Y]) of the `n` rows at I leaves. -/
def drawn (s : State) (x y : Reg) (n : Nat) : Canvas :=
  drawRows (s.getV x).toNat (s.getV y).toNat (bytesAt s.mem s.idx.toNat n) (s.fb, false)

theorem execDrw_valid (x y : Reg) (n : Nibble) {s : State} (h : n.toNat = 0 ∨ s.idx.toNat + n.toNat ≤ 0x1000) :
    exec (.drw x y n) s =
      .next ((s.setFb (drawn s x y n.toNat).1).setV regF (collisionFlag (drawn s x y n.toNat).2)).advance := by
  rw [exec, execDrw, indexBase, readBytes_valid s h]; rfl

theorem execDrw_invalid (x y : Reg) (n : Nibble) {s : State} (hn : n.toNat ≠ 0) (h : 0x1000 < s.idx.toNat + n.toNat) :
    exec (.drw x y n) s =
      .next (raise .outOfBoundsAccess (encode (.drw x y n))
        (s.forgetDraw (s.getV x).toNat (s.getV y).toNat s.idx.toNat n.toNat)) := by
  rw [exec, execDrw, indexBase, readBytes_invalid s hn h]

theorem execSkp_key (x : Reg) {s : State} (h : (s.getV x).toNat ≤ 15) :
    exec (.skp x) s = .next (s.skipIf (keyDown (s.getV x).toNat s)) := if_neg (by omega)

theorem execSkp_noKey (x : Reg) {s : State} (h : 15 < (s.getV x).toNat) :
    exec (.skp x) s = .next (raise .keyIndexOutOfRange (encode (.skp x)) s) := if_pos h

theorem execSknp_key (x : Reg) {s : State} (h : (s.getV x).toNat ≤ 15) :
    exec (.sknp x) s = .next (s.skipIf (!keyDown (s.getV x).toNat s)) := if_neg (by omega)

theorem execSknp_noKey (x : Reg) {s : State} (h : 15 < (s.getV x).toNat) :
    exec (.sknp x) s = .next (raise .keyIndexOutOfRange (encode (.sknp x)) s) := if_pos h

theorem execLdVxK_wait (x : Reg) {s : State} (h : anyKey s = none) :
    exec (.ldVxK x) s = .next (s.setKeyWait true) := by
  rw [exec, execLdVxK, h]

theorem execLdVxK_key (x : Reg) {s : State} {k : Nat} (h : anyKey s = some k) :
    exec (.ldVxK x) s = .next ((s.setV x (BitVec.ofNat 8 k)).setKeyWait false).advance := by
  rw [exec, execLdVxK, h]

end Sys2Proof.Machine
end

