-- ==== Sys2Proof/Laws/PerInstr.lean ====
section
/-! SUPPORT. The family `EncodeRow`: the word the encoder writes for an instruction has the fixed bits of the
instruction's own row of opcode_table.json (30_encoding.md R61, R63). -/

namespace Sys2Proof.Laws.EncodeRow

/-- The encoder's word belongs to the instruction's row. -/
def Statement (i : Instr) : Prop := (tableRow i).selects (encode i) = true

theorem formatA_selects (f : Nibble) (n : Addr) {r : TableRow} (h : r = ⟨0xF000, formatA f 0⟩) :
    r.selects (formatA f n) = true := by
  subst h
  simp only [TableRow.selects, beq_iff_eq]
  refine BitVec.eq_of_getLsbD_eq fun i hi => ?_
  rw [BitVec.getLsbD_and, getLsbD_formatA, getLsbD_formatA]
  interval_cases i <;> simp

theorem formatXNN_selects (f : Nibble) (x : Reg) (nn : Byte) {r : TableRow} (h : r = ⟨0xF000, formatA f 0⟩) :
    r.selects (formatXNN f x nn) = true := by
  subst h
  simp only [TableRow.selects, beq_iff_eq]
  refine BitVec.eq_of_getLsbD_eq fun i hi => ?_
  rw [BitVec.getLsbD_and, getLsbD_formatA, getLsbD_formatXNN]
  interval_cases i <;> simp

theorem formatXYN_selects (f : Nibble) (x y : Reg) (n : Nibble) {r : TableRow} (h : r = ⟨0xF000, formatA f 0⟩) :
    r.selects (formatXYN f x y n) = true := by
  subst h
  simp only [TableRow.selects, beq_iff_eq]
  refine BitVec.eq_of_getLsbD_eq fun i hi => ?_
  rw [BitVec.getLsbD_and, getLsbD_formatA, getLsbD_formatXYN]
  interval_cases i <;> simp

theorem formatXY_selects (f : Nibble) (x y : Reg) (n : Nibble) {r : TableRow} (h : r = ⟨0xF00F, formatXYN f 0 0 n⟩) :
    r.selects (formatXYN f x y n) = true := by
  subst h
  simp only [TableRow.selects, beq_iff_eq]
  refine BitVec.eq_of_getLsbD_eq fun i hi => ?_
  rw [BitVec.getLsbD_and, getLsbD_formatXYN, getLsbD_formatXYN]
  interval_cases i <;> simp [regBits]

theorem formatX_selects (f : Nibble) (x : Reg) (nn : Byte) {r : TableRow} (h : r = ⟨0xF0FF, formatXNN f 0 nn⟩) :
    r.selects (formatXNN f x nn) = true := by
  subst h
  simp only [TableRow.selects, beq_iff_eq]
  refine BitVec.eq_of_getLsbD_eq fun i hi => ?_
  rw [BitVec.getLsbD_and, getLsbD_formatXNN, getLsbD_formatXNN]
  interval_cases i <;> simp [regBits]

theorem cls : Statement .cls := rfl

theorem ret : Statement .ret := rfl

theorem jp (nnn : Addr) : Statement (.jp nnn) := formatA_selects _ _ rfl

theorem call (nnn : Addr) : Statement (.call nnn) := formatA_selects _ _ rfl

theorem seByte (x : Reg) (nn : Byte) : Statement (.seByte x nn) := formatXNN_selects _ _ _ rfl

theorem sneByte (x : Reg) (nn : Byte) : Statement (.sneByte x nn) := formatXNN_selects _ _ _ rfl

theorem seReg (x y : Reg) : Statement (.seReg x y) := formatXY_selects _ _ _ _ rfl

theorem ldByte (x : Reg) (nn : Byte) : Statement (.ldByte x nn) := formatXNN_selects _ _ _ rfl

theorem addByte (x : Reg) (nn : Byte) : Statement (.addByte x nn) := formatXNN_selects _ _ _ rfl

theorem ldReg (x y : Reg) : Statement (.ldReg x y) := formatXY_selects _ _ _ _ rfl

theorem orReg (x y : Reg) : Statement (.orReg x y) := formatXY_selects _ _ _ _ rfl

theorem andReg (x y : Reg) : Statement (.andReg x y) := formatXY_selects _ _ _ _ rfl

theorem xorReg (x y : Reg) : Statement (.xorReg x y) := formatXY_selects _ _ _ _ rfl

theorem addReg (x y : Reg) : Statement (.addReg x y) := formatXY_selects _ _ _ _ rfl

theorem sub (x y : Reg) : Statement (.sub x y) := formatXY_selects _ _ _ _ rfl

theorem shr (x y : Reg) : Statement (.shr x y) := formatXY_selects _ _ _ _ rfl

theorem subn (x y : Reg) : Statement (.subn x y) := formatXY_selects _ _ _ _ rfl

theorem shl (x y : Reg) : Statement (.shl x y) := formatXY_selects _ _ _ _ rfl

theorem sneReg (x y : Reg) : Statement (.sneReg x y) := formatXY_selects _ _ _ _ rfl

theorem ldI (nnn : Addr) : Statement (.ldI nnn) := formatA_selects _ _ rfl

theorem jpV0 (nnn : Addr) : Statement (.jpV0 nnn) := formatA_selects _ _ rfl

theorem rnd (x : Reg) (nn : Byte) : Statement (.rnd x nn) := formatXNN_selects _ _ _ rfl

theorem drw (x y : Reg) (n : Nibble) : Statement (.drw x y n) := formatXYN_selects _ _ _ _ rfl

theorem skp (x : Reg) : Statement (.skp x) := formatX_selects _ _ _ rfl

theorem sknp (x : Reg) : Statement (.sknp x) := formatX_selects _ _ _ rfl

theorem ldVxDt (x : Reg) : Statement (.ldVxDt x) := formatX_selects _ _ _ rfl

theorem ldVxK (x : Reg) : Statement (.ldVxK x) := formatX_selects _ _ _ rfl

theorem ldDtVx (x : Reg) : Statement (.ldDtVx x) := formatX_selects _ _ _ rfl

theorem ldStVx (x : Reg) : Statement (.ldStVx x) := formatX_selects _ _ _ rfl

theorem addI (x : Reg) : Statement (.addI x) := formatX_selects _ _ _ rfl

theorem ldF (x : Reg) : Statement (.ldF x) := formatX_selects _ _ _ rfl

theorem ldB (x : Reg) : Statement (.ldB x) := formatX_selects _ _ _ rfl

theorem stRegs (x : Reg) : Statement (.stRegs x) := formatX_selects _ _ _ rfl

theorem ldRegs (x : Reg) : Statement (.ldRegs x) := formatX_selects _ _ _ rfl

end Sys2Proof.Laws.EncodeRow
end

