-- ==== Sys2Proof/Tests/Slice0.lean ====
section
/-! SUPPORT. Tests. The expected values come from 95_test_vectors.md (the vector's name stands before each test) and
from the encodings of 30_encoding.md R61; the witnesses show that the hypotheses of the statements can be met. -/

namespace Sys2Proof.Tests

open Sys2Proof.Machine

/-! ## WellFormed: an ill-formed term for each check, refused at the interface (TK19, S6c) -/

theorem test_key_number_16_is_ill_formed :
    Transaction.wf (.setKey 16 true) = false ∧ Transaction.wf (.setKey 15 true) = true ∧
      respond (.setKey 16 true) State.reset = .refused := by decide

theorem test_rom_of_3585_bytes_is_ill_formed :
    Transaction.wf (.load (List.replicate 3585 0)) = false ∧ Transaction.wf (.load (List.replicate 3584 0)) = true := by
  simp only [Transaction.wf, List.length_replicate]
  decide

theorem test_rom_of_3585_bytes_is_too_large :
    load (List.replicate 3585 0) State.reset = (.romTooLarge, State.reset) := by
  rw [load, if_neg (by decide), if_pos (by rw [List.length_replicate]; decide)]

/-! ## Decoding: one word of every instruction, its bits as R61's pattern lays them out -/

theorem test_decode_cls : decodeWord 0b0000000011100000 = some .cls := by decide
theorem test_decode_ret : decodeWord 0b0000000011101110 = some .ret := by decide
theorem test_decode_jp : decodeWord 0b0001_1010_1011_1100 = some (.jp 0xABC) := by decide
theorem test_decode_call : decodeWord 0b0010_0010_0000_1100 = some (.call 0x20C) := by decide
theorem test_decode_seByte : decodeWord 0b0011_0011_0100_0010 = some (.seByte 3 0x42) := by decide
theorem test_decode_sneByte : decodeWord 0b0100_0011_0100_0001 = some (.sneByte 3 0x41) := by decide
theorem test_decode_seReg : decodeWord 0b0101_0110_1001_0000 = some (.seReg 6 9) := by decide
theorem test_decode_ldByte : decodeWord 0b0110_1010_0111_1011 = some (.ldByte 10 0x7B) := by decide
theorem test_decode_addByte : decodeWord 0b0111_0101_0000_0011 = some (.addByte 5 0x03) := by decide
theorem test_decode_ldReg : decodeWord 0b1000_0001_0010_0000 = some (.ldReg 1 2) := by decide
theorem test_decode_orReg : decodeWord 0b1000_0001_0010_0001 = some (.orReg 1 2) := by decide
theorem test_decode_andReg : decodeWord 0b1000_0001_0010_0010 = some (.andReg 1 2) := by decide
theorem test_decode_xorReg : decodeWord 0b1000_0001_0010_0011 = some (.xorReg 1 2) := by decide
theorem test_decode_addReg : decodeWord 0b1000_0001_0010_0100 = some (.addReg 1 2) := by decide
theorem test_decode_sub : decodeWord 0b1000_0001_0010_0101 = some (.sub 1 2) := by decide
theorem test_decode_shr : decodeWord 0b1000_0001_0010_0110 = some (.shr 1 2) := by decide
theorem test_decode_subn : decodeWord 0b1000_0001_0010_0111 = some (.subn 1 2) := by decide
theorem test_decode_shl : decodeWord 0b1000_0001_0010_1110 = some (.shl 1 2) := by decide
theorem test_decode_sneReg : decodeWord 0b1001_0110_1010_0000 = some (.sneReg 6 10) := by decide
theorem test_decode_ldI : decodeWord 0b1010_0011_0000_0100 = some (.ldI 0x304) := by decide
theorem test_decode_jpV0 : decodeWord 0b1011_0101_0000_0001 = some (.jpV0 0x501) := by decide
theorem test_decode_rnd : decodeWord 0b1100_0011_0000_1111 = some (.rnd 3 0x0F) := by decide
theorem test_decode_drw : decodeWord 0b1101_1010_1011_0101 = some (.drw 10 11 5) := by decide
theorem test_decode_skp : decodeWord 0b1110_0101_1001_1110 = some (.skp 5) := by decide
theorem test_decode_sknp : decodeWord 0b1110_0101_1010_0001 = some (.sknp 5) := by decide
theorem test_decode_ldVxDt : decodeWord 0b1111_0011_0000_0111 = some (.ldVxDt 3) := by decide
theorem test_decode_ldVxK : decodeWord 0b1111_0011_0000_1010 = some (.ldVxK 3) := by decide
theorem test_decode_ldDtVx : decodeWord 0b1111_0011_0001_0101 = some (.ldDtVx 3) := by decide
theorem test_decode_ldStVx : decodeWord 0b1111_0011_0001_1000 = some (.ldStVx 3) := by decide
theorem test_decode_addI : decodeWord 0b1111_0011_0001_1110 = some (.addI 3) := by decide
theorem test_decode_ldF : decodeWord 0b1111_1100_0010_1001 = some (.ldF 12) := by decide
theorem test_decode_ldB : decodeWord 0b1111_0010_0011_0011 = some (.ldB 2) := by decide
theorem test_decode_stRegs : decodeWord 0b1111_0001_0101_0101 = some (.stRegs 1) := by decide
theorem test_decode_ldRegs : decodeWord 0b1111_0010_0110_0101 = some (.ldRegs 2) := by decide

/-- TE1-TE11. -/
theorem test_decode_illegal :
    decodeWord 0x0000 = none ∧ decodeWord 0x0123 = none ∧ decodeWord 0x00E1 = none ∧ decodeWord 0x5121 = none ∧
    decodeWord 0x8128 = none ∧ decodeWord 0x812F = none ∧ decodeWord 0x9011 = none ∧ decodeWord 0xE19F = none ∧
    decodeWord 0xF100 = none ∧ decodeWord 0xF1FF = none ∧ decodeWord 0xFFFF = none := by decide

theorem test_decodeTableWord : decodeTableWord 16 0xDAB5 = some (.drw 10 11 5) ∧
    decodeTableWord 16 0x5121 = none := by decide

/-! ## One step -/

/-- The state after RESET with some registers loaded. -/
def given (regs : List (Reg × Byte)) : State := regs.foldl (fun s p => s.setV p.1 p.2) State.reset

/-- The step that runs the word `w` at PC answers a next state that passes the check. -/
def stepping (w : Nat) (s : State) (check : State → Bool) : Bool :=
  match step (s.withFetchWord 16 w) with
  | .next t => check t
  | .fault _ => false
  | .refused _ => false

/-- Halted with this error record, PC being its pc. -/
def haltedWith (f : Fault) (pc op : Word) (valid : Bool) (t : State) : Bool :=
  t.halted && decide (t.err.kind = some f) && decide (t.err.pc = pc) && decide (t.pc = pc) &&
    decide (t.err.opcodeValid = valid) && (!valid || decide (t.err.opcode = op))

/-- V[x] and PC. -/
def shows (x : Reg) (b : Byte) (pc : Word) (t : State) : Bool := decide (t.getV x = b) && decide (t.pc = pc)

/-- V[x], VF and PC = 202. -/
def showsFlag (x : Reg) (b flag : Byte) (t : State) : Bool := shows x b 0x202 t && decide (t.getV regF = flag)

/-- TE5. -/
theorem test_illegal_word : stepping 0x8128 State.reset (haltedWith .unknownOpcode 0x200 0x8128 true) = true := by decide

/-- P6d, TE13. -/
theorem test_fetch_at_FFF :
    (match step { State.reset with pc := 0xFFF } with
      | .next t => haltedWith .outOfBoundsAccess 0xFFF 0 false t
      | _ => false) = true := by decide

/-- TE16. -/
theorem test_halted_step : step { State.reset with halted := true } = .next { State.reset with halted := true } := rfl

/-- TI4. -/
theorem test_step_after_reset :
    (match step State.reset with
      | .next t => haltedWith .unknownOpcode 0x200 0x0000 true t
      | _ => false) = true := by decide

/-! ### Control flow -/

/-- TC8. -/
theorem test_ret : stepping 0x00EE { State.reset with pc := 0x20E, sp := 1, stack := State.reset.stack.set 0 0x206 }
    (fun t => decide (t.pc = 0x206) && decide (t.sp = 0)) = true := by decide

/-- TC9. -/
theorem test_ret_underflow : stepping 0x00EE State.reset (haltedWith .stackUnderflow 0x200 0x00EE true) = true := by decide

/-- TC1. -/
theorem test_jp : stepping 0x1ABC State.reset (fun t => decide (t.pc = 0xABC)) = true := by decide

/-- TC7. -/
theorem test_call : stepping 0x2200 { State.reset with pc := 0xFFE }
    (fun t => decide (t.pc = 0x200) && decide (t.sp = 1) && decide (t.stack[0] = 0x1000)) = true := by decide

/-- TC6. -/
theorem test_call_overflow : stepping 0x2400 { State.reset with pc := 0x300, sp := 16 }
    (fun t => haltedWith .stackOverflow 0x300 0x2400 true t && decide (t.sp = 16)) = true := by decide

/-- TC13. -/
theorem test_seByte : stepping 0x3342 { given [(3, 0x42)] with pc := 0xFFE } (shows 3 0x42 0x1002) = true := by decide

/-- TC12. -/
theorem test_seByte_not_taken : stepping 0x3343 (given [(3, 0x42)]) (shows 3 0x42 0x202) = true := by decide

/-- TC15. -/
theorem test_sneByte : stepping 0x4300 (given [(3, 0x42)]) (shows 3 0x42 0x204) = true := by decide

/-- TC14. -/
theorem test_sneByte_not_taken : stepping 0x4342 (given [(3, 0x42)]) (shows 3 0x42 0x202) = true := by decide

/-- TC17. -/
theorem test_seReg : stepping 0x5010 (given [(0, 5), (1, 5)]) (shows 0 5 0x204) = true := by decide

/-- TC18. -/
theorem test_seReg_not_taken : stepping 0x5010 (given [(0, 5), (1, 6)]) (shows 0 5 0x202) = true := by decide

/-- TC20. -/
theorem test_sneReg : stepping 0x9010 (given [(0, 1), (1, 5)]) (shows 0 1 0x204) = true := by decide

/-- TC21. -/
theorem test_sneReg_not_taken : stepping 0x9010 (given [(0, 5), (1, 5)]) (shows 0 5 0x202) = true := by decide

/-- TC24. -/
theorem test_jpV0 : stepping 0xBFFF (given [(0, 0xFF)]) (shows 0 0xFF 0x10FE) = true := by decide

/-- TC26. -/
theorem test_jpV0_index_is_V0 : stepping 0xB500 (given [(5, 0x10)]) (shows 5 0x10 0x500) = true := by decide

/-! ### Registers and ALU -/

/-- TA1. -/
theorem test_ldByte : stepping 0x6A7B State.reset (showsFlag 10 0x7B 0) = true := by decide

/-- TA4. -/
theorem test_addByte : stepping 0x7001 (given [(0, 0xFF)]) (showsFlag 0 0x00 0) = true := by decide

/-- TA5. -/
theorem test_addByte_vf : stepping 0x7F01 (given [(15, 0xFF)]) (shows 15 0x00 0x202) = true := by decide

/-- TA6. -/
theorem test_ldReg : stepping 0x8010 (given [(1, 0x33)]) (shows 0 0x33 0x202) = true := by decide

/-- TA7. -/
theorem test_orReg : stepping 0x8011 (given [(0, 0xF0), (1, 0x0F), (15, 7)]) (showsFlag 0 0xFF 7) = true := by decide

/-- TA8. -/
theorem test_andReg : stepping 0x8012 (given [(0, 0xF0), (1, 0x3C)]) (showsFlag 0 0x30 0) = true := by decide

/-- TA9. -/
theorem test_xorReg : stepping 0x8013 (given [(0, 0xF0), (1, 0x3C)]) (showsFlag 0 0xCC 0) = true := by decide

/-- TA11. -/
theorem test_addReg : stepping 0x8014 (given [(0, 0xFF), (1, 0x01)]) (showsFlag 0 0x00 1) = true := by decide

/-- TA15. -/
theorem test_addReg_reads_old_vf : stepping 0x80F4 (given [(0, 0x10), (15, 5)]) (showsFlag 0 0x15 0) = true := by decide

/-- TA16. -/
theorem test_sub : stepping 0x8015 (given [(0, 0x01), (1, 0x02)]) (showsFlag 0 0xFF 0) = true := by decide

/-- TA17. -/
theorem test_sub_equal : stepping 0x8015 (given [(0, 0x05), (1, 0x05)]) (showsFlag 0 0x00 1) = true := by decide

/-- TA22. -/
theorem test_shr : stepping 0x8236 (given [(2, 0x01), (3, 0xFF)]) (showsFlag 2 0x00 1) = true := by decide

/-- TA23. -/
theorem test_shr_vf : stepping 0x8F06 (given [(15, 0x03)]) (shows 15 0x01 0x202) = true := by decide

/-- TA24. -/
theorem test_subn : stepping 0x8017 (given [(0, 0x02), (1, 0x01)]) (showsFlag 0 0xFF 0) = true := by decide

/-- TA25. -/
theorem test_subn_no_borrow : stepping 0x8017 (given [(0, 0x01), (1, 0x02)]) (showsFlag 0 0x01 1) = true := by decide

/-- TA27. -/
theorem test_shl : stepping 0x820E (given [(2, 0x81)]) (showsFlag 2 0x02 1) = true := by decide

/-- TA28. -/
theorem test_shl_no_carry : stepping 0x820E (given [(2, 0x40)]) (showsFlag 2 0x80 0) = true := by decide

/-- TA34. -/
theorem test_shr_with_vy :
    (match shiftRight true 2 3 (given [(3, 0x05)]) with | .next t => showsFlag 2 0x02 1 t | _ => false) = true := by
  decide

/-- TA32: whatever the draw. -/
theorem test_rnd_masked_to_zero :
    ∃ t, exec (.rnd 3 0x00) State.reset = .next t ∧ t.getV 3 = 0 ∧ t.draws = 1 :=
  ⟨_, rfl, BitVec.and_zero, rfl⟩

/-- TA33: the draw itself, which is free. -/
theorem test_rnd_unmasked : ∃ t, exec (.rnd 3 0xFF) State.reset = .next t ∧ t.getV 3 = Config.randomByte 0 :=
  ⟨_, rfl, BitVec.and_allOnes (x := Config.randomByte 0)⟩

/-! ### Index register and memory -/

/-- Mem[a] = b for each pair. -/
def holds (cells : List (Nat × Byte)) (t : State) : Bool := cells.all fun c => decide (Memory.read t.mem c.1 = c.2)

/-- TM2. -/
theorem test_ldI : stepping 0xAFFF { State.reset with idx := 0x1234 } (fun t => decide (t.idx = 0x0FFF)) = true := by
  decide

/-- TM3. -/
theorem test_addI : stepping 0xF11E { given [(1, 2), (15, 9)] with idx := 0x0FFF }
    (fun t => decide (t.idx = 0x1001) && shows 15 9 0x202 t) = true := by decide

/-- TM4. -/
theorem test_addI_wraps : stepping 0xF11E { given [(1, 1)] with idx := 0xFFFF }
    (fun t => decide (t.idx = 0x0000)) = true := by decide

/-- TM6. -/
theorem test_ldF : stepping 0xFC29 (given [(12, 0x0F)]) (fun t => decide (t.idx = 0x004B)) = true := by decide

/-- TM9. -/
theorem test_ldF_whole_byte : stepping 0xF029 (given [(0, 0xFF)]) (fun t => decide (t.idx = 0x04FB)) = true := by decide

/-- TM14. -/
theorem test_ldB : stepping 0xF233 { given [(2, 0x2A)] with idx := 0xFFD }
    (fun t => holds [(0xFFC, 0), (0xFFD, 0), (0xFFE, 4), (0xFFF, 2)] t && decide (t.pc = 0x202)) = true := by decide

/-- TM15. -/
theorem test_ldB_fault : stepping 0xF233 { given [(2, 0x2A)] with idx := 0xFFE }
    (haltedWith .outOfBoundsAccess 0x200 0xF233 true) = true := by decide

/-- TM16. -/
theorem test_stRegs : stepping 0xF155 { given [(0, 1), (1, 2), (2, 3)] with idx := 0x300 }
    (fun t => holds [(0x2FF, 0), (0x300, 1), (0x301, 2), (0x302, 0)] t && decide (t.idx = 0x300)) = true := by decide

/-- TM20. -/
theorem test_stRegs_fault : stepping 0xF055 { State.reset with idx := 0x1000 }
    (haltedWith .outOfBoundsAccess 0x200 0xF055 true) = true := by decide

/-- TM21. -/
theorem test_ldRegs : stepping 0xF265
    { given [(3, 9)] with idx := 0x300, mem := Memory.writeBytes [] 0x300 [2, 5, 5, 7] }
    (fun t => shows 0 2 0x202 t && shows 1 5 0x202 t && shows 2 5 0x202 t && shows 3 9 0x202 t) = true := by decide

/-- TM23. -/
theorem test_ldRegs_fault : stepping 0xF165 { State.reset with idx := 0xFFF }
    (haltedWith .outOfBoundsAccess 0x200 0xF165 true) = true := by decide

/-! ### Display -/

/-- TD1. -/
theorem test_cls : stepping 0x00E0 { State.reset with fb := Vector.replicate 32 (Vector.replicate 64 true) }
    (fun t => decide (t.fb = clearedFb) && decide (t.pc = 0x202)) = true := by decide

/-- TD4. -/
theorem test_drw_collision : stepping 0xD011
    { State.reset with
      idx := 0x300, mem := Memory.writeBytes [] 0x300 [0x80],
      fb := State.reset.fb.set 0 (State.reset.fb[0].set 0 true) }
    (fun t => decide (t.fb = clearedFb) && decide (t.getV regF = 1)) = true := by decide

/-- TD6. -/
theorem test_drw_clips : stepping 0xD011
    { given [(0, 0x3C)] with idx := 0x300, mem := Memory.writeBytes [] 0x300 [0xFF] }
    (fun t => pixel t 60 0 && pixel t 63 0 && !pixel t 59 0 && !pixel t 0 0 && !pixel t 3 0 && !pixel t 60 1 &&
      decide (t.getV regF = 0)) = true := by decide

/-- TD13. -/
theorem test_drw_fault : stepping 0xD012 { given [(1, 0x1F)] with idx := 0xFFF }
    (haltedWith .outOfBoundsAccess 0x200 0xD012 true) = true := by decide

/-! ### Keypad and timers -/

/-- The state after RESET with the keys of these numbers down. -/
def pressing (ks : List (Fin 16)) (s : State) : State := { s with keys := ks.foldl (fun v k => v.set k.val true k.isLt) s.keys }

/-- TK1. -/
theorem test_skp : stepping 0xE59E (pressing [10] (given [(5, 0x0A)])) (shows 5 0x0A 0x204) = true := by decide

/-- TK5. -/
theorem test_skp_fault : stepping 0xE59E (given [(5, 0x10)]) (haltedWith .keyIndexOutOfRange 0x200 0xE59E true) = true := by
  decide

/-- TK3. -/
theorem test_sknp : stepping 0xE5A1 (given [(5, 0x0A)]) (shows 5 0x0A 0x204) = true := by decide

/-- TK4. -/
theorem test_sknp_not_taken : stepping 0xE5A1 (pressing [10] (given [(5, 0x0A)])) (shows 5 0x0A 0x202) = true := by decide

/-- TK7. -/
theorem test_ldVxDt : stepping 0xF307 { State.reset with dt := 0x3C } (shows 3 0x3C 0x202) = true := by decide

/-- TK8. -/
theorem test_ldDtVx : stepping 0xF015 (given [(0, 5)]) (fun t => decide (t.dt = 5) && decide (t.st = 0)) = true := by decide

/-- TK10. -/
theorem test_ldStVx : stepping 0xF118 (given [(1, 0x10)]) (fun t => decide (t.st = 0x10) && soundOn t) = true := by decide

/-- TK14. -/
theorem test_ldVxK_waits : stepping 0xF30A (given [(3, 0x55)]) (fun t => t.keyWait && shows 3 0x55 0x200 t) = true := by
  decide

/-- TK15. -/
theorem test_ldVxK_lowest : stepping 0xF30A { pressing [7, 2] State.reset with keyWait := true }
    (fun t => !t.keyWait && shows 3 0x02 0x202 t) = true := by decide

/-! ### The other transactions -/

/-- TK13: TICK acts while halted. -/
theorem test_tick : step { State.reset with schedule := [.tick], dt := 4, halted := true } =
    .next { State.reset with dt := 3, halted := true } := rfl

/-- TK18. -/
theorem test_setKey : step { State.reset with schedule := [.setKey 3 true] } = .next (pressing [3] State.reset) := rfl

/-- TI2. -/
theorem test_load_twice :
    (match Host.Core.run core 2 { State.reset with schedule := [.load [0x12, 0x34], .load [0xAB]] } with
      | .next t => holds [(0x1FF, 0), (0x200, 0xAB), (0x201, 0x34), (0x202, 0)] t
      | _ => false) = true := by decide

/-- TI3. -/
theorem test_load_after_step : load [0x12, 0x34] { State.reset with started := true } =
    (.refused, { State.reset with started := true }) := rfl

/-- TI1, of a halted block. -/
theorem test_reset : step { State.reset with schedule := [.reset], halted := true, pc := 0x300, dt := 4 } =
    .next State.reset := by
  change Host.Outcome.next { State.reset with mem := Memory.seeded Config.font } = _
  rw [Memory.seeded_default]
  rfl

/-- R12: another FONT is seeded by RESET, at 0x000-0x04F and nowhere else. -/
theorem test_reset_with_another_font :
    (match step { State.reset with schedule := [.reset], font := Vector.replicate 80 0xAA } with
      | .next t => holds [(0x000, 0xAA), (0x04F, 0xAA), (0x050, 0x00)] t
      | _ => false) = true := by decide

/-! ## Witnesses: the hypotheses of the statements are met, each clause's at its boundary -/

/-- The state after RESET with bytes placed from PC on. -/
def placed (pc : Word) (bytes : List Byte) : State :=
  { State.reset with pc := pc, mem := Memory.writeBytes [] pc.toNat bytes }

theorem stepDue_empty (s : State) (h : s.schedule = []) : StepDue s s := .inl ⟨h, rfl⟩

theorem stepDue_scheduled (s : State) (rest : List Transaction) (h : s.schedule = rest) :
    StepDue { s with schedule := .step :: rest } s := .inr ⟨rest, rfl, by subst h; rfl⟩

theorem transactionDue_scheduled (tr : Transaction) (s : State) (rest : List Transaction) (h : s.schedule = rest) :
    TransactionDue tr { s with schedule := tr :: rest } s := .inr ⟨rest, rfl, by subst h; rfl⟩

theorem witness_EncodeOfDecodedWordGivesWordBack : ∃ w i, decodeWord w = some i := ⟨0xF265, .ldRegs 2, by decide⟩

theorem witness_StepRunsDecodedInstruction : ∃ (s u : State) (i : Instr), StepDue s u ∧ u.halted = false ∧
    u.pc.toNat + 1 = 0xFFF ∧
    decodeWord (wordOfBytes (Memory.read u.mem u.pc.toNat) (Memory.read u.mem (u.pc.toNat + 1))) = some i :=
  ⟨placed 0xFFE [0x12, 0x00], _, .jp 0x200, stepDue_empty _ rfl, by decide⟩

theorem witness_StepRunsDecodedInstruction_scheduled : ∃ (s u : State) (i : Instr), StepDue s u ∧ s.schedule ≠ [] ∧
    u.halted = false ∧ u.pc.toNat + 1 ≤ 0xFFF ∧
    decodeWord (wordOfBytes (Memory.read u.mem u.pc.toNat) (Memory.read u.mem (u.pc.toNat + 1))) = some i :=
  ⟨_, placed 0x200 [0x00, 0xE0], .cls, stepDue_scheduled _ [] rfl, by decide⟩

theorem witness_FetchOutsideMemoryFaults : ∃ s u : State, StepDue s u ∧ u.halted = false ∧ u.pc.toNat = 0xFFF :=
  ⟨placed 0xFFF [], _, stepDue_empty _ rfl, by decide⟩

theorem witness_IllegalWordFaults : ∃ (s u : State) (w : Word), StepDue s u ∧ u.halted = false ∧
    u.pc.toNat + 1 ≤ 0xFFF ∧
    w = wordOfBytes (Memory.read u.mem u.pc.toNat) (Memory.read u.mem (u.pc.toNat + 1)) ∧ decodeWord w = none :=
  ⟨placed 0xFFE [0x51, 0x21], _, 0x5121, stepDue_empty _ rfl, by decide⟩

/-- A block halted by an illegal word at 200. -/
def haltedBlock : State := raise .unknownOpcode 0x0000 { State.reset with started := true }

theorem witness_HaltedBlockStaysHalted_step : ∃ s u : State, StepDue s u ∧ u.halted = true :=
  ⟨haltedBlock, _, stepDue_empty _ rfl, rfl⟩

theorem witness_HaltedBlockStaysHalted_other : ∃ (s u t : State) (tr : Transaction), TransactionDue tr s u ∧
    s.halted = true ∧ step s = .next t ∧ tr ≠ .reset :=
  ⟨_, haltedBlock, _, .tick, transactionDue_scheduled _ _ [] rfl, rfl, rfl, by decide⟩

theorem witness_TickDecrementsTimers : ∃ s u : State, TransactionDue .tick s u ∧ u.dt = 0 ∧ u.st = 1 :=
  ⟨_, { State.reset with st := 1 }, transactionDue_scheduled _ _ [] rfl, by decide⟩

theorem witness_SetKeyWritesOneKey : (∃ s u : State, TransactionDue (.setKey 15 true) s u) ∧
    (∃ s u : State, TransactionDue (.setKey 16 true) s u) :=
  ⟨⟨_, State.reset, transactionDue_scheduled _ _ [] rfl⟩, ⟨_, State.reset, transactionDue_scheduled _ _ [] rfl⟩⟩

theorem witness_SetKeyWritesOneKey_other : ∃ (tr : Transaction) (s u t : State), TransactionDue tr s u ∧
    (∀ k b, tr ≠ .setKey k b) ∧ tr ≠ .reset ∧ step s = .next t :=
  ⟨.tick, _, State.reset, _, transactionDue_scheduled _ _ [] rfl, by simp, by decide, rfl⟩

theorem witness_LoadCopiesTheProgram : ∀ n ∈ [3584, 3585], ∃ (bytes : List Byte) (s u : State), bytes.length = n ∧
    TransactionDue (.load bytes) s u ∧ u.started = false ∧ Memory.wf u.mem = true :=
  fun n _ => ⟨List.replicate n 0, _, State.reset, List.length_replicate, transactionDue_scheduled _ _ [] rfl, rfl, rfl⟩

theorem witness_LoadOnlyBeforeTheFirstStep_refused : ∃ (bytes : List Byte) (s u : State),
    TransactionDue (.load bytes) s u ∧ u.started = true :=
  ⟨[], _, { State.reset with started := true }, transactionDue_scheduled _ _ [] rfl, rfl⟩

theorem witness_LoadOnlyBeforeTheFirstStep_step : ∃ s u t : State, StepDue s u ∧ u.halted = false ∧ step s = .next t :=
  ⟨placed 0x200 [0x00, 0xE0], _, _, stepDue_empty _ rfl, rfl, rfl⟩

theorem witness_LoadOnlyBeforeTheFirstStep_other : ∃ (tr : Transaction) (s u t : State), TransactionDue tr s u ∧
    tr ≠ .step ∧ tr ≠ .reset ∧ step s = .next t :=
  ⟨.tick, _, State.reset, _, transactionDue_scheduled _ _ [] rfl, by decide, by decide, rfl⟩

theorem witness_LoadOnlyBeforeTheFirstStep_reset : ∃ s u t : State, TransactionDue .reset s u ∧ step s = .next t :=
  ⟨_, haltedBlock, _, transactionDue_scheduled _ _ [] rfl, rfl⟩

theorem witness_ResetTransactionGivesTheResetValues : ∃ s u : State, TransactionDue .reset s u ∧ u.halted = true :=
  ⟨_, haltedBlock, transactionDue_scheduled _ _ [] rfl, rfl⟩

/-- The state after RESET with `n` entries on the call stack. -/
def stacked (n : Fin 17) : State := { State.reset with sp := n }

theorem witness_ReturnPopsOrUnderflows : 0 < (stacked 1).sp.val ∧ (stacked 0).sp.val = 0 := by decide

theorem witness_CallPushesOrOverflows : (stacked 15).sp.val < 16 ∧ (stacked 16).sp.val = 16 := by decide

theorem witness_CallThenReturnComesBack : (stacked 15).sp.val < 16 := by decide

/-- A word of each family whose decoding a statement claims, with the operand bits all set or all clear. -/
theorem witness_decoded_families :
    nib3 0x1FFF = 0x1 ∧ nib3 0x2000 = 0x2 ∧ nib3 0x3FFF = 0x3 ∧ nib3 0x4000 = 0x4 ∧ nib3 0x5FF0 = 0x5 ∧
    nib0 0x5FF0 = 0 ∧ nib3 0x6FFF = 0x6 ∧ nib3 0x7000 = 0x7 ∧ nib3 0x9000 = 0x9 ∧ nib0 0x9000 = 0 ∧
    nib0 0x5001 ≠ 0 ∧ nib0 0x9FFF ≠ 0 ∧ nib3 0xA000 = 0xA ∧ nib3 0xBFFF = 0xB ∧ nib3 0xC000 = 0xC ∧
    nib3 0xDFFF = 0xD := by decide

theorem witness_decoded_family_8 : ∀ n ∈ ([0x0, 0x1, 0x2, 0x3, 0x4, 0x5, 0x6, 0x7, 0xE] : List Nibble),
    nib3 (formatXYN 0x8 15 0 n) = 0x8 ∧ nib0 (formatXYN 0x8 15 0 n) = n := by decide

theorem witness_decoded_families_E_F :
    (∀ nn ∈ ([0x9E, 0xA1] : List Byte), nib3 (formatXNN 0xE 15 nn) = 0xE ∧ fieldNN (formatXNN 0xE 15 nn) = nn) ∧
    (∀ nn ∈ ([0x07, 0x0A, 0x15, 0x18, 0x1E, 0x29, 0x33, 0x55, 0x65] : List Byte),
      nib3 (formatXNN 0xF 0 nn) = 0xF ∧ fieldNN (formatXNN 0xF 0 nn) = nn) := by decide

/-- The state after RESET with this I. -/
def pointing (a : Word) : State := { State.reset with idx := a }

theorem witness_DecimalDigitsAreStored : Memory.wf (pointing 0xFFD).mem = true ∧ (pointing 0xFFD).idx.toNat + 2 ≤ 0xFFF ∧
    0xFFF < (pointing 0xFFE).idx.toNat + 2 := by decide

theorem witness_RegistersAreStored : Memory.wf (pointing 0xFF0).mem = true ∧
    (pointing 0xFF0).idx.toNat + (15 : Reg).val ≤ 0xFFF ∧ 0xFFF < (pointing 0xFF1).idx.toNat + (15 : Reg).val := by decide

theorem witness_RegistersAreLoaded : (pointing 0xFF0).idx.toNat + (15 : Reg).val ≤ 0xFFF ∧
    0xFFF < (pointing 0xFF1).idx.toNat + (15 : Reg).val := by decide

theorem witness_MemoryReadsWhatWasWritten : Memory.wf State.reset.mem = true ∧ 0xFFF ≤ 0xFFF ∧ 0xFFF < 0x1000 := by
  decide

theorem witness_StoredBytesAreFetchedNext : ∃ (x : Reg) (s : State) (i : Instr), s.halted = false ∧ s.schedule = [] ∧
    Memory.wf s.mem = true ∧ 1 ≤ x.val ∧ s.idx = s.pc + 2 ∧ s.pc.toNat + 2 + x.val = 0xFFF ∧
    decodeWord (wordOfBytes (s.getV 0) (s.getV 1)) = some i :=
  ⟨1, { given [(0, 0x12), (1, 0x00)] with pc := 0xFFC, idx := 0xFFE }, .jp 0x200, by decide⟩

theorem witness_DrawXorsClippedSprite : (pointing 0xFF1).idx.toNat + (15 : Nibble).toNat ≤ 0x1000 ∧
    (15 : Nibble) ≠ 0 ∧ 0x1000 < (pointing 0xFF2).idx.toNat + (15 : Nibble).toNat := by decide

theorem witness_DrawingTwiceRestoresTheFrame : (14 : Reg) ≠ regF ∧ (0 : Reg) ≠ regF ∧
    (pointing 0xFF1).idx.toNat + (15 : Nibble).toNat ≤ 0x1000 ∧ ∀ px py, pixel (pointing 0xFF1) px py = false := by
  decide

theorem witness_KeySkips : ((given [(5, 0x0F)]).getV 5).toNat < 16 ∧ 15 < ((given [(5, 0x10)]).getV 5).toNat := by decide

theorem witness_WaitKeyStoresTheLowestKey :
    ((pressing [15] State.reset).keys[15] = true ∧ ∀ j : Fin 16, j < 15 → (pressing [15] State.reset).keys[j] = false) ∧
    (∀ j : Fin 16, State.reset.keys[j] = false) := by decide

theorem witness_KeyWaitRepeatsUntilAKeyIsDown : ∃ (x : Reg) (s : State), s.schedule = [] ∧ s.halted = false ∧
    s.pc.toNat + 1 = 0xFFF ∧
    decodeWord (wordOfBytes (Memory.read s.mem s.pc.toNat) (Memory.read s.mem (s.pc.toNat + 1))) = some (.ldVxK x) ∧
    ∀ j : Fin 16, s.keys[j] = false :=
  ⟨15, placed 0xFFE [0xFF, 0x0A], by decide⟩

theorem witness_OnlyDestinationsAndFlagsChangeRegisters : ∃ (i : Instr) (s t : State) (r : Reg),
    exec i s = .next t ∧ ¬ Destination i r ∧ ¬ (WritesFlag i ∧ r = regF) :=
  ⟨.addReg 0 1, given [(0, 0xFF), (1, 1)], _, 2, rfl, by simp [Destination], fun h => absurd h.2 (by decide)⟩

theorem witness_EachPartHasItsWriters : ∃ (i : Instr) (s t : State), exec i s = .next t :=
  ⟨.ldI 0x300, State.reset, _, rfl⟩

theorem witness_NoInstructionReadsTheSoundTimer : (∃ (i : Instr) (s t : State), exec i s = .next t ∧
      ∀ x, i ≠ .ldStVx x) ∧ (∃ (i : Instr) (s t : State) (x : Reg), exec i s = .next t ∧ i = .ldStVx x) :=
  ⟨⟨.ldVxDt 0, State.reset, _, rfl, by simp⟩, ⟨_, State.reset, _, 0, rfl, rfl⟩⟩

theorem witness_NextPcIsAsTheTableSays : ∃ (i : Instr) (s t : State), exec i s = .next t ∧ s.halted = false :=
  ⟨.call 0x20C, stacked 15, _, rfl, rfl⟩

theorem witness_FaultsAreRaisedExactlyWhenDue : (∃ (w : Word) (i : Instr) (s t : State), decodeWord w = some i ∧
      exec i s = .next t ∧ FaultCondition i s = some .stackOverflow) ∧
    (∃ (w : Word) (i : Instr) (s t : State), decodeWord w = some i ∧ exec i s = .next t ∧ FaultCondition i s = none) :=
  ⟨⟨0x2400, .call 0x400, stacked 16, _, by decide, rfl, by decide⟩,
    ⟨0x2400, .call 0x400, stacked 15, _, by decide, rfl, by decide⟩⟩

theorem witness_TickCommutesWithOtherInstructions : ∃ (i : Instr) (s t : State), exec i s = .next t ∧
    (∀ x, i ≠ .ldVxDt x) ∧ (∀ x, i ≠ .ldDtVx x) ∧ (∀ x, i ≠ .ldStVx x) :=
  ⟨.ldVxK 0, { State.reset with dt := 5 }, _, rfl, by simp⟩

theorem witness_DrawingTwiceRestoresTheFrame_unlit : ∀ px py, spriteBit (pointing 0x04B) 14 0 5 px py = true →
    pixel (pointing 0x04B) px py = false := fun px py _ => by revert px py; decide

theorem witness_EveryStepKeepsTheFontParameter : ∃ s t : State, step s = .next t := ⟨State.reset, _, rfl⟩

/-- In a state whose next STEP fetches the FX29. -/
theorem witness_GlyphAddressesPointIntoTheFont : ∃ (x : Reg) (d : Fin 16) (font : Font) (s : State), d = 15 ∧
    (∀ a (h : a < 80), Memory.read s.mem a = font[a]) ∧ (s.getV x).toNat = d.val ∧
    decodeWord (wordOfBytes (Memory.read s.mem s.pc.toNat) (Memory.read s.mem (s.pc.toNat + 1))) = some (.ldF x) :=
  ⟨12, 15, Config.font, (placed 0x200 [0xFC, 0x29]).setV 12 0x0F, rfl, by decide, by decide, by decide⟩

/-- A block that waits for a key at 200. -/
def waitingBlock : State := { placed 0x200 [0xF3, 0x0A] with keyWait := true, started := true }

theorem waitingBlock_inv : waitingBlock.Inv where
  memCanonical := by decide
  pcBound := by decide
  returnBound := fun _ h => absurd h (Nat.not_lt_zero _)
  waiting := fun _ => ⟨rfl, 3, by decide⟩
  waitingStarted := fun _ => rfl
  haltedError := fun h => absurd h (by decide)
  runningError := fun _ => rfl

theorem haltedBlock_inv : haltedBlock.Inv where
  memCanonical := by decide
  pcBound := by decide
  returnBound := fun _ h => absurd h (Nat.not_lt_zero _)
  waiting := fun h => absurd h (by decide)
  waitingStarted := fun h => absurd h (by decide)
  haltedError := fun _ => by decide
  runningError := fun h => absurd h (by decide)

theorem witness_EveryStepKeepsTheInvariant : ∃ s t : State, s.Inv ∧ s.keyWait = true ∧ step s = .next t :=
  ⟨waitingBlock, _, waitingBlock_inv, rfl, rfl⟩

theorem witness_EveryStepKeepsTheInvariant_halted : ∃ s t : State, s.Inv ∧ s.halted = true ∧ step s = .next t :=
  ⟨haltedBlock, _, haltedBlock_inv, rfl, rfl⟩

/-- A reachable state that is not reset: after LOAD of a one-instruction program and its STEP. -/
theorem witness_ReachableStatesMeetTheInvariant : ∃ s : State, Reachable s ∧ s.pc = 0xABC :=
  ⟨_, .afterStep (.afterStep (.reset Config.font [.load [0x1A, 0xBC]]) rfl) rfl, rfl⟩

end Sys2Proof.Tests
end

/-! PROOFS. The parameters of the block (00_scope.md R11-R13): no transaction changes FONT, FX29 points into it, and
SHIFT_USES_VY selects the source of a shift. The shared facts come first: what no instruction writes, what an
instruction with a result and a flag leaves, and the arithmetic of the shifts and of a glyph's address. -/

namespace Sys2Proof.Machine

/-! ## What no instruction writes -/

/-- The keypad, the mark of R135, the schedule and the parameter FONT are the same: only transactions write these. -/
structure SameSurroundings (s t : State) : Prop where
  keys : t.keys = s.keys
  started : t.started = s.started
  schedule : t.schedule = s.schedule
  font : t.font = s.font

theorem sameSurroundings_skipIf (s : State) (taken : Bool) : SameSurroundings s (s.skipIf taken) := by
  rw [State.skipIf_eq]
  exact ⟨rfl, rfl, rfl, rfl⟩

theorem sameSurroundings_forgetRegs (s : State) (a : Nat) (x : Reg) : SameSurroundings s (s.forgetRegs a x) := by
  obtain ⟨-, e⟩ | ⟨-, e⟩ := State.forgetRegs_cases s a x
  · rw [e]; exact ⟨rfl, rfl, rfl, rfl⟩
  · rw [e]; exact ⟨rfl, rfl, rfl, rfl⟩

theorem SameSurroundings.raise {s t : State} (h : SameSurroundings s t) (f : Fault) (op : Word) :
    SameSurroundings s (raise f op t) :=
  ⟨h.keys, h.started, h.schedule, h.font⟩

/-- Every instruction answers a next state, a fatal error included, with the surroundings as they were. -/
theorem exec_sameSurroundings (i : Instr) (s : State) : ∃ t, exec i s = .next t ∧ SameSurroundings s t := by
  cases i with
  | ret =>
    rcases Nat.eq_zero_or_pos s.sp.val with h | h
    · exact ⟨_, execRet_empty h, rfl, rfl, rfl, rfl⟩
    · exact ⟨_, execRet_entry h, rfl, rfl, rfl, rfl⟩
  | call nnn =>
    rcases Nat.lt_or_eq_of_le (Nat.le_of_lt_succ s.sp.isLt) with h | h
    · exact ⟨_, execCall_room nnn h, rfl, rfl, rfl, rfl⟩
    · exact ⟨_, execCall_full nnn h, rfl, rfl, rfl, rfl⟩
  | seByte x nn => exact ⟨_, rfl, sameSurroundings_skipIf s _⟩
  | sneByte x nn => exact ⟨_, rfl, sameSurroundings_skipIf s _⟩
  | seReg x y => exact ⟨_, rfl, sameSurroundings_skipIf s _⟩
  | sneReg x y => exact ⟨_, rfl, sameSurroundings_skipIf s _⟩
  | drw x y n =>
    by_cases h : n.toNat = 0 ∨ s.idx.toNat + n.toNat ≤ 0x1000
    · exact ⟨_, execDrw_valid x y n h, rfl, rfl, rfl, rfl⟩
    · exact ⟨_, execDrw_invalid x y n (by omega) (by omega), rfl, rfl, rfl, rfl⟩
  | skp x =>
    rcases Nat.lt_or_ge 15 (s.getV x).toNat with h | h
    · exact ⟨_, execSkp_noKey x h, rfl, rfl, rfl, rfl⟩
    · exact ⟨_, execSkp_key x h, sameSurroundings_skipIf s _⟩
  | sknp x =>
    rcases Nat.lt_or_ge 15 (s.getV x).toNat with h | h
    · exact ⟨_, execSknp_noKey x h, rfl, rfl, rfl, rfl⟩
    · exact ⟨_, execSknp_key x h, sameSurroundings_skipIf s _⟩
  | ldVxK x =>
    cases h : anyKey s with
    | none => exact ⟨_, execLdVxK_wait x h, rfl, rfl, rfl, rfl⟩
    | some k => exact ⟨_, execLdVxK_key x h, rfl, rfl, rfl, rfl⟩
  | ldB x =>
    rcases Nat.lt_or_ge 0xFFF (s.idx.toNat + 2) with h | h
    · exact ⟨_, execLdB_invalid x h, rfl, rfl, rfl, rfl⟩
    · exact ⟨_, execLdB_valid x h, rfl, rfl, rfl, rfl⟩
  | stRegs x =>
    rcases Nat.lt_or_ge 0xFFF (s.idx.toNat + x.val) with h | h
    · exact ⟨_, execStRegs_invalid x h, rfl, rfl, rfl, rfl⟩
    · exact ⟨_, execStRegs_valid x h, rfl, rfl, rfl, rfl⟩
  | ldRegs x =>
    rcases Nat.lt_or_ge 0xFFF (s.idx.toNat + x.val) with h | h
    · exact ⟨_, execLdRegs_invalid x h, (sameSurroundings_forgetRegs s _ x).raise _ _⟩
    · exact ⟨_, execLdRegs_valid x h, rfl, rfl, rfl, rfl⟩
  -- the instructions that test nothing: one equation each
  | _ => exact ⟨_, rfl, rfl, rfl, rfl, rfl⟩

/-! ## What a transaction leaves of FONT -/

/-- STEP answers a next state: the same one while halted; else its surroundings are those of the state in which a STEP
has now run. -/
theorem stepTransaction_sameSurroundings (s : State) : ∃ t, stepTransaction s = .next t ∧
    (s.halted = true ∧ t = s ∨ s.halted = false ∧ SameSurroundings s.markStarted t) := by
  obtain ⟨hh, e⟩ | ⟨hh, -, e⟩ | ⟨hh, -, w, -, ⟨-, e⟩ | ⟨i, -, e⟩⟩ := stepTransaction_cases s
  · exact ⟨s, e, .inl ⟨hh, rfl⟩⟩
  · exact ⟨_, e, .inr ⟨hh, rfl, rfl, rfl, rfl⟩⟩
  · exact ⟨_, e, .inr ⟨hh, rfl, rfl, rfl, rfl⟩⟩
  · obtain ⟨t, ht, same⟩ := exec_sameSurroundings i s.markStarted
    exact ⟨t, e.trans ht, .inr ⟨hh, same⟩⟩

theorem stepTransaction_font (s : State) : ∃ t, stepTransaction s = .next t ∧ t.font = s.font := by
  obtain ⟨t, ht, ⟨-, rfl⟩ | ⟨-, same⟩⟩ := stepTransaction_sameSurroundings s
  · exact ⟨t, ht, rfl⟩
  · exact ⟨t, ht, same.font⟩

theorem setKey_font (k : Nat) (pressed : Bool) (s : State) : (setKey k pressed s).2.font = s.font := by
  rw [setKey]; split <;> rfl

theorem load_font (bytes : List Byte) (s : State) : (load bytes s).2.font = s.font := by
  rw [load]
  split
  · rfl
  · split <;> rfl

theorem transact_font (tr : Transaction) (s : State) : ∃ t, transact tr s = .next t ∧ t.font = s.font := by
  cases tr with
  | step => exact stepTransaction_font s
  | tick => exact ⟨_, rfl, rfl⟩
  | setKey k pressed => exact ⟨_, rfl, setKey_font k pressed s⟩
  | load bytes => exact ⟨_, rfl, load_font bytes s⟩
  | reset => exact ⟨_, rfl, rfl⟩

/-- Settles O55: the transaction that is due runs on a state with the font of `s` and keeps it. -/
theorem everyStepKeepsTheFontParameter : Obligations.EveryStepKeepsTheFontParameter := by
  intro s t h
  obtain ⟨tr, u, due⟩ := exists_due s
  obtain ⟨t', ht', hfont⟩ := transact_font tr u
  have ht : t = t' := by
    rw [step_of_due due, ht'] at h
    cases h; rfl
  rw [ht, hfont, due_eq due]

/-! ## Glyph addresses (R96) -/

/-- Five times a byte fits in a word. -/
@[simp] theorem toNat_glyphAddress (b : Byte) : (glyphAddress b).toNat = b.toNat * 5 := by
  rw [glyphAddress, BitVec.toNat_ofNat]
  omega

/-- Settles O56: I becomes 5 d, and FX29 writes no memory. -/
theorem glyphAddressesPointIntoTheFont : Obligations.GlyphAddressesPointIntoTheFont := by
  intro x d k font s hfont hdigit
  refine ⟨(s.setIdx (glyphAddress (s.getV x))).advance, rfl, ?_⟩
  have haddr : (glyphAddress (s.getV x)).toNat = 5 * d.val := by
    rw [toNat_glyphAddress, hdigit, Nat.mul_comm]
  rw [State.advance_mem, State.setIdx_mem, State.advance_idx, State.setIdx_idx, haddr]
  exact hfont (5 * d.val + k.val) (by omega)

/-! ## Results with a flag, and the shifts (R89, R91) -/

/-- The flag is written last, so VF holds it also when it is the destination (D13). -/
theorem writeWithFlag_resultAndFlag (x : Reg) (b flag : Byte) (s : State) :
    ∃ t, writeWithFlag x b flag s = .next t ∧ ResultAndFlag x b.toNat flag.toNat s t := by
  refine ⟨_, rfl, ?flag, ?result, rfl, ?frame⟩
  case flag => simp
  case result => intro hx; simp [hx]
  case frame =>
    constructor
    case regs =>
      intro r hr
      obtain ⟨hx, hF⟩ := not_or.mp hr
      simp [hx, hF]
    all_goals simp [keyDown, pixel]

theorem toNat_shiftedRight (b : Byte) : (b >>> 1).toNat = b.toNat / 2 := by
  rw [BitVec.toNat_ushiftRight, Nat.shiftRight_eq_div_pow, pow_one]

theorem toNat_shiftedOutLow (b : Byte) : (shiftedOutLow b).toNat = b.toNat % 2 := by
  rw [shiftedOutLow, BitVec.toNat_and]
  exact Nat.and_one_is_mod _

theorem toNat_shiftedLeft (b : Byte) : (b <<< 1).toNat = b.toNat * 2 % 256 := by
  rw [BitVec.toNat_shiftLeft, Nat.shiftLeft_eq, pow_one]

theorem toNat_shiftedOutHigh (b : Byte) : (shiftedOutHigh b).toNat = b.toNat / 128 := by
  have hb : b.toNat < 256 := b.isLt
  have hshift : (b >>> 7).toNat = b.toNat / 128 := by
    rw [BitVec.toNat_ushiftRight, Nat.shiftRight_eq_div_pow]
  calc (shiftedOutHigh b).toNat = (shiftedOutLow (b >>> 7)).toNat := rfl
    _ = b.toNat / 128 % 2 := by rw [toNat_shiftedOutLow, hshift]
    _ = b.toNat / 128 := by omega

theorem shiftRight_resultAndFlag (usesVY : Bool) (x y : Reg) (s : State) :
    ∃ t, shiftRight usesVY x y s = .next t ∧
      ResultAndFlag x ((shiftOperand usesVY x y s).toNat / 2) ((shiftOperand usesVY x y s).toNat % 2) s t := by
  rw [← toNat_shiftedRight, ← toNat_shiftedOutLow]
  exact writeWithFlag_resultAndFlag _ _ _ _

theorem shiftLeft_resultAndFlag (usesVY : Bool) (x y : Reg) (s : State) :
    ∃ t, shiftLeft usesVY x y s = .next t ∧
      ResultAndFlag x ((shiftOperand usesVY x y s).toNat * 2 % 256) ((shiftOperand usesVY x y s).toNat / 128) s t := by
  rw [← toNat_shiftedLeft, ← toNat_shiftedOutHigh]
  exact writeWithFlag_resultAndFlag _ _ _ _

theorem shiftOperand_true (x y : Reg) (s : State) : shiftOperand true x y s = s.getV y := rfl

/-- On this hardware the right shift takes V[X]. -/
theorem exec_shr (x y : Reg) (s : State) :
    exec (.shr x y) s = writeWithFlag x (s.getV x >>> 1) (shiftedOutLow (s.getV x)) s := rfl

/-- On this hardware the left shift takes V[X]. -/
theorem exec_shl (x y : Reg) (s : State) :
    exec (.shl x y) s = writeWithFlag x (s.getV x <<< 1) (shiftedOutHigh (s.getV x)) s := rfl

/-- Settles O30: the operand is V[Y] with the parameter set and V[X] on this hardware. -/
theorem shiftParameterSelectsTheSource : Obligations.ShiftParameterSelectsTheSource := by
  refine ⟨rfl, fun x y s => ⟨?right, ?left⟩, fun x y z s => ⟨?shr, ?shl⟩⟩
  case right => simpa only [shiftOperand_true] using shiftRight_resultAndFlag true x y s
  case left => simpa only [shiftOperand_true] using shiftLeft_resultAndFlag true x y s
  case shr => rw [exec_shr, exec_shr]
  case shl => rw [exec_shl, exec_shl]

end Sys2Proof.Machine

/-! PROOFS. The state (10_state.md): what each instruction answers, said once as a relation (`Answers`), and from it who
writes which part (R21-R33, R37, R38), that no instruction reads ST (R26), and that every transaction keeps the
invariant of R40. -/

namespace Sys2Proof.Machine

/-! ## What each instruction answers -/

/-- From `s`, instruction `i` raises `f`, and `u` is `s` with what `i` would have written forgotten (R110, R111). -/
inductive Raises (s : State) : Instr → Fault → State → Prop where
  | ret (h : s.sp.val = 0) : Raises s .ret .stackUnderflow s
  | call (nnn : Addr) (h : s.sp.val = Config.stackDepth) : Raises s (.call nnn) .stackOverflow s
  | skp (x : Reg) (h : 15 < (s.getV x).toNat) : Raises s (.skp x) .keyIndexOutOfRange s
  | sknp (x : Reg) (h : 15 < (s.getV x).toNat) : Raises s (.sknp x) .keyIndexOutOfRange s
  | drw (x y : Reg) (n : Nibble) (hn : n.toNat ≠ 0) (h : 0x1000 < s.idx.toNat + n.toNat) :
      Raises s (.drw x y n) .outOfBoundsAccess (s.forgetDraw (s.getV x).toNat (s.getV y).toNat s.idx.toNat n.toNat)
  | ldB (x : Reg) (h : 0xFFF < s.idx.toNat + 2) : Raises s (.ldB x) .outOfBoundsAccess (s.forgetMem s.idx.toNat 3)
  | stRegs (x : Reg) (h : 0xFFF < s.idx.toNat + x.val) :
      Raises s (.stRegs x) .outOfBoundsAccess (s.forgetMem s.idx.toNat (x.val + 1))
  | ldRegs (x : Reg) (h : 0xFFF < s.idx.toNat + x.val) :
      Raises s (.ldRegs x) .outOfBoundsAccess (s.forgetRegs s.idx.toNat x)

/-- From `s`, instruction `i` is a skip, taken or not (R75-R78, R104, R105). -/
inductive Skips (s : State) : Instr → Bool → Prop where
  | seByte (x : Reg) (nn : Byte) : Skips s (.seByte x nn) (s.getV x == nn)
  | sneByte (x : Reg) (nn : Byte) : Skips s (.sneByte x nn) (s.getV x != nn)
  | seReg (x y : Reg) : Skips s (.seReg x y) (s.getV x == s.getV y)
  | sneReg (x y : Reg) : Skips s (.sneReg x y) (s.getV x != s.getV y)
  | skp (x : Reg) (h : (s.getV x).toNat ≤ 15) : Skips s (.skp x) (keyDown (s.getV x).toNat s)
  | sknp (x : Reg) (h : (s.getV x).toNat ≤ 15) : Skips s (.sknp x) (!keyDown (s.getV x).toNat s)

/-- From `s`, instruction `i` makes the update `u` and then advances PC by 2. -/
inductive Updates (s : State) : Instr → State → Prop where
  | cls : Updates s .cls (s.setFb clearedFb)
  | ldByte (x : Reg) (nn : Byte) : Updates s (.ldByte x nn) (s.setV x nn)
  | addByte (x : Reg) (nn : Byte) : Updates s (.addByte x nn) (s.setV x (s.getV x + nn))
  | ldReg (x y : Reg) : Updates s (.ldReg x y) (s.setV x (s.getV y))
  | orReg (x y : Reg) : Updates s (.orReg x y) (s.setV x (s.getV x ||| s.getV y))
  | andReg (x y : Reg) : Updates s (.andReg x y) (s.setV x (s.getV x &&& s.getV y))
  | xorReg (x y : Reg) : Updates s (.xorReg x y) (s.setV x (s.getV x ^^^ s.getV y))
  | addReg (x y : Reg) :
      Updates s (.addReg x y) ((s.setV x (s.getV x + s.getV y)).setV regF (carryFlag (s.getV x) (s.getV y)))
  | sub (x y : Reg) :
      Updates s (.sub x y) ((s.setV x (s.getV x - s.getV y)).setV regF (noBorrowFlag (s.getV x) (s.getV y)))
  | shr (x y : Reg) : Updates s (.shr x y) ((s.setV x (s.getV x >>> 1)).setV regF (shiftedOutLow (s.getV x)))
  | subn (x y : Reg) :
      Updates s (.subn x y) ((s.setV x (s.getV y - s.getV x)).setV regF (noBorrowFlag (s.getV y) (s.getV x)))
  | shl (x y : Reg) : Updates s (.shl x y) ((s.setV x (s.getV x <<< 1)).setV regF (shiftedOutHigh (s.getV x)))
  | ldI (nnn : Addr) : Updates s (.ldI nnn) (s.setIdx (zextAddr nnn))
  | rnd (x : Reg) (nn : Byte) : Updates s (.rnd x nn) (s.countDraw.setV x (s.nextRandom &&& nn))
  | drw (x y : Reg) (n : Nibble) (h : n.toNat = 0 ∨ s.idx.toNat + n.toNat ≤ 0x1000) :
      Updates s (.drw x y n)
        ((s.setFb (drawn s x y n.toNat).1).setV regF (collisionFlag (drawn s x y n.toNat).2))
  | ldVxDt (x : Reg) : Updates s (.ldVxDt x) (s.setV x s.dt)
  | ldVxK (x : Reg) (k : Nat) (h : anyKey s = some k) :
      Updates s (.ldVxK x) ((s.setV x (BitVec.ofNat 8 k)).setKeyWait false)
  | ldDtVx (x : Reg) : Updates s (.ldDtVx x) (s.setDt (s.getV x))
  | ldStVx (x : Reg) : Updates s (.ldStVx x) (s.setSt (s.getV x))
  | addI (x : Reg) : Updates s (.addI x) (s.setIdx (s.idx + zextByte (s.getV x)))
  | ldF (x : Reg) : Updates s (.ldF x) (s.setIdx (glyphAddress (s.getV x)))
  | ldB (x : Reg) (h : s.idx.toNat + 2 ≤ 0xFFF) :
      Updates s (.ldB x) (s.setMem (Memory.writeBytes s.mem s.idx.toNat (decimalDigits (s.getV x))))
  | stRegs (x : Reg) (h : s.idx.toNat + x.val ≤ 0xFFF) :
      Updates s (.stRegs x) (s.setMem (Memory.writeBytes s.mem s.idx.toNat (s.regsUpTo x)))
  | ldRegs (x : Reg) (h : s.idx.toNat + x.val ≤ 0xFFF) :
      Updates s (.ldRegs x) (s.loadRegs (bytesAt s.mem s.idx.toNat (x.val + 1)))

/-- The state `exec` answers for instruction `i` in `s`: a fatal error, or one of the ways PC moves on. -/
inductive Answers (s : State) : Instr → State → Prop where
  | raised {i : Instr} {f : Fault} {u : State} (h : Raises s i f u) : Answers s i (raise f (encode i) u)
  | skipped {i : Instr} {taken : Bool} (h : Skips s i taken) : Answers s i (s.skipIf taken)
  | advanced {i : Instr} {u : State} (h : Updates s i u) : Answers s i u.advance
  | jumped (nnn : Addr) : Answers s (.jp nnn) (s.setPc (zextAddr nnn))
  | jumpedByV0 (nnn : Addr) : Answers s (.jpV0 nnn) (s.setPc (zextAddr nnn + zextByte (s.getV 0)))
  | called (nnn : Addr) (h : s.sp.val < Config.stackDepth) :
      Answers s (.call nnn) ((s.push (s.pc + 2) h).setPc (zextAddr nnn))
  | returned (h : 0 < s.sp.val) : Answers s .ret (s.drop.setPc (s.top h))
  | waiting (x : Reg) (h : anyKey s = none) : Answers s (.ldVxK x) (s.setKeyWait true)

variable {s t u : State} {i : Instr} {f : Fault} {taken : Bool}

theorem Raises.exec_eq (h : Raises s i f u) : exec i s = .next (raise f (encode i) u) := by
  cases h with
  | ret h => exact execRet_empty h
  | call nnn h => exact execCall_full nnn h
  | skp x h => exact execSkp_noKey x h
  | sknp x h => exact execSknp_noKey x h
  | drw x y n hn h => exact execDrw_invalid x y n hn h
  | ldB x h => exact execLdB_invalid x h
  | stRegs x h => exact execStRegs_invalid x h
  | ldRegs x h => exact execLdRegs_invalid x h

theorem Skips.exec_eq (h : Skips s i taken) : exec i s = .next (s.skipIf taken) := by
  cases h with
  | skp x h => exact execSkp_key x h
  | sknp x h => exact execSknp_key x h
  | _ => rfl

theorem Updates.exec_eq (h : Updates s i u) : exec i s = .next u.advance := by
  cases h with
  | drw x y n h => exact execDrw_valid x y n h
  | ldVxK x k h => exact execLdVxK_key x h
  | ldB x h => exact execLdB_valid x h
  | stRegs x h => exact execStRegs_valid x h
  | ldRegs x h => exact execLdRegs_valid x h
  -- the instructions that test nothing: one equation each
  | _ => rfl

theorem Answers.exec_eq (h : Answers s i t) : exec i s = .next t := by
  cases h with
  | raised h => exact h.exec_eq
  | skipped h => exact h.exec_eq
  | advanced h => exact h.exec_eq
  | jumped nnn => rfl
  | jumpedByV0 nnn => rfl
  | called nnn h => exact execCall_room nnn h
  | returned h => exact execRet_entry h
  | waiting x h => exact execLdVxK_wait x h

theorem exists_answers (i : Instr) (s : State) : ∃ t, Answers s i t := by
  cases i with
  | ret =>
    rcases Nat.eq_zero_or_pos s.sp.val with h | h
    · exact ⟨_, .raised (.ret h)⟩
    · exact ⟨_, .returned h⟩
  | call nnn =>
    rcases Nat.lt_or_eq_of_le (Nat.le_of_lt_succ s.sp.isLt) with h | h
    · exact ⟨_, .called nnn h⟩
    · exact ⟨_, .raised (.call nnn h)⟩
  | jp nnn => exact ⟨_, .jumped nnn⟩
  | jpV0 nnn => exact ⟨_, .jumpedByV0 nnn⟩
  | seByte x nn => exact ⟨_, .skipped (.seByte x nn)⟩
  | sneByte x nn => exact ⟨_, .skipped (.sneByte x nn)⟩
  | seReg x y => exact ⟨_, .skipped (.seReg x y)⟩
  | sneReg x y => exact ⟨_, .skipped (.sneReg x y)⟩
  | skp x =>
    rcases Nat.lt_or_ge 15 (s.getV x).toNat with h | h
    · exact ⟨_, .raised (.skp x h)⟩
    · exact ⟨_, .skipped (.skp x h)⟩
  | sknp x =>
    rcases Nat.lt_or_ge 15 (s.getV x).toNat with h | h
    · exact ⟨_, .raised (.sknp x h)⟩
    · exact ⟨_, .skipped (.sknp x h)⟩
  | drw x y n =>
    by_cases h : n.toNat = 0 ∨ s.idx.toNat + n.toNat ≤ 0x1000
    · exact ⟨_, .advanced (.drw x y n h)⟩
    · exact ⟨_, .raised (.drw x y n (by omega) (by omega))⟩
  | ldVxK x =>
    cases h : anyKey s with
    | none => exact ⟨_, .waiting x h⟩
    | some k => exact ⟨_, .advanced (.ldVxK x k h)⟩
  | ldB x =>
    rcases Nat.lt_or_ge 0xFFF (s.idx.toNat + 2) with h | h
    · exact ⟨_, .raised (.ldB x h)⟩
    · exact ⟨_, .advanced (.ldB x h)⟩
  | stRegs x =>
    rcases Nat.lt_or_ge 0xFFF (s.idx.toNat + x.val) with h | h
    · exact ⟨_, .raised (.stRegs x h)⟩
    · exact ⟨_, .advanced (.stRegs x h)⟩
  | ldRegs x =>
    rcases Nat.lt_or_ge 0xFFF (s.idx.toNat + x.val) with h | h
    · exact ⟨_, .raised (.ldRegs x h)⟩
    · exact ⟨_, .advanced (.ldRegs x h)⟩
  -- the instructions that test nothing: an update, and PC advances
  | _ => exact ⟨_, .advanced (by constructor)⟩

/-- Inversion of `exec`: what it answers is what the relation lists. -/
theorem answers_iff_exec : Answers s i t ↔ exec i s = .next t := by
  refine ⟨Answers.exec_eq, fun h => ?_⟩
  obtain ⟨t', ht'⟩ := exists_answers i s
  have : t' = t := by
    rw [ht'.exec_eq] at h
    exact Host.Outcome.next.inj h
  exact this ▸ ht'

/-! ## Who writes what (R21-R33, R37, R38, R49) -/

/-- The parts of the state beside PC, the call stack and the error, each unchanged unless `i` is one of its writers. -/
structure Writers (i : Instr) (s t : State) : Prop where
  regs : ∀ r, ¬ Destination i r → ¬ (WritesFlag i ∧ r = regF) → t.getV r = s.getV r
  idx : t.idx = s.idx ∨ (∃ nnn, i = .ldI nnn) ∨ (∃ x, i = .addI x) ∨ (∃ x, i = .ldF x)
  mem : t.mem = s.mem ∨ (∃ x, i = .ldB x) ∨ (∃ x, i = .stRegs x)
  fb : t.fb = s.fb ∨ i = .cls ∨ (∃ x y n, i = .drw x y n)
  dt : t.dt = s.dt ∨ ∃ x, i = .ldDtVx x
  st : t.st = s.st ∨ ∃ x, i = .ldStVx x
  keyWait : t.keyWait = s.keyWait ∨ ∃ x, i = .ldVxK x
  keys : t.keys = s.keys

/-- PC, the call stack, `halted` and `err` are the same. -/
structure SameControl (s t : State) : Prop where
  pc : t.pc = s.pc
  stack : t.stack = s.stack
  sp : t.sp = s.sp
  halted : t.halted = s.halted
  err : t.err = s.err

/-- Forgetting loaded registers changes registers and the count of free values only. -/
theorem State.forgetRegs_eq (s : State) (a : Nat) (x : Reg) :
    s.forgetRegs a x = { s with v := (s.forgetRegs a x).v, frees := (s.forgetRegs a x).frees } := by
  obtain ⟨-, e⟩ | ⟨-, e⟩ := State.forgetRegs_cases s a x
  · rw [e]
  · rw [e]; rfl

theorem writers_refl (i : Instr) (s : State) : Writers i s s :=
  ⟨fun _ _ _ => rfl, .inl rfl, .inl rfl, .inl rfl, .inl rfl, .inl rfl, .inl rfl, rfl⟩

/-- Writing a destination. -/
theorem writers_setV {x : Reg} (b : Byte) (hx : Destination i x) : Writers i s (s.setV x b) :=
  { writers_refl i s with
    regs := fun r hr _ => by
      rw [State.getV_setV, if_neg]
      rintro rfl
      exact hr hx }

/-- Writing VF as a flag. -/
theorem Writers.setFlag (h : Writers i s u) (hi : WritesFlag i) (b : Byte) : Writers i s (u.setV regF b) :=
  { h with
    regs := fun r hr hF => by
      rw [State.getV_setV, if_neg fun e => hF ⟨hi, e⟩]
      exact h.regs r hr hF }

theorem writers_setV_flag {x : Reg} (b flag : Byte) (hx : Destination i x) (hi : WritesFlag i) :
    Writers i s ((s.setV x b).setV regF flag) :=
  (writers_setV b hx).setFlag hi flag

theorem writers_drw (x y : Reg) (n : Nibble) (c : Framebuffer) (flag : Byte) :
    Writers (.drw x y n) s ((s.setFb c).setV regF flag) := by
  have pixels : Writers (.drw x y n) s (s.setFb c) :=
    { writers_refl _ s with fb := .inr (.inr ⟨x, y, n, rfl⟩) }
  exact pixels.setFlag trivial flag

theorem Raises.writers (h : Raises s i f u) : Writers i s u := by
  cases h with
  | ret h => exact writers_refl _ s
  | call nnn h => exact writers_refl _ s
  | skp x h => exact writers_refl _ s
  | sknp x h => exact writers_refl _ s
  | drw x y n hn h => exact { writers_drw x y n _ _ with }
  | ldB x h => exact { writers_refl _ s with mem := .inr (.inl ⟨x, rfl⟩) }
  | stRegs x h => exact { writers_refl _ s with mem := .inr (.inr ⟨x, rfl⟩) }
  | ldRegs x h =>
    have regs (r : Reg) (hr : ¬ r ≤ x) : (s.forgetRegs s.idx.toNat x).getV r = s.getV r :=
      State.getV_forgetRegs_after s _ (Fin.not_le.mp hr)
    rw [State.forgetRegs_eq] at regs ⊢
    exact { writers_refl _ s with regs := fun r hr _ => regs r hr }

theorem Updates.writers (h : Updates s i u) : Writers i s u := by
  cases h with
  | cls => exact { writers_refl _ s with fb := .inr (.inl rfl) }
  | addReg x y => exact writers_setV_flag _ _ rfl trivial
  | sub x y => exact writers_setV_flag _ _ rfl trivial
  | shr x y => exact writers_setV_flag _ _ rfl trivial
  | subn x y => exact writers_setV_flag _ _ rfl trivial
  | shl x y => exact writers_setV_flag _ _ rfl trivial
  | drw x y n h => exact writers_drw x y n _ _
  | ldI nnn => exact { writers_refl _ s with idx := .inr (.inl ⟨nnn, rfl⟩) }
  | addI x => exact { writers_refl _ s with idx := .inr (.inr (.inl ⟨x, rfl⟩)) }
  | ldF x => exact { writers_refl _ s with idx := .inr (.inr (.inr ⟨x, rfl⟩)) }
  | rnd x nn => exact { writers_setV (s := s) (i := .rnd x nn) (s.nextRandom &&& nn) rfl with }
  | ldVxK x k h =>
    exact { writers_setV (s := s) (i := .ldVxK x) (BitVec.ofNat 8 k) rfl with keyWait := .inr ⟨x, rfl⟩ }
  | ldDtVx x => exact { writers_refl _ s with dt := .inr ⟨x, rfl⟩ }
  | ldStVx x => exact { writers_refl _ s with st := .inr ⟨x, rfl⟩ }
  | ldB x h => exact { writers_refl _ s with mem := .inr (.inl ⟨x, rfl⟩) }
  | stRegs x h => exact { writers_refl _ s with mem := .inr (.inr ⟨x, rfl⟩) }
  | ldRegs x h =>
    refine { writers_refl _ s with regs := fun r hr _ => ?_ }
    rw [State.getV_loadRegs, dif_neg]
    rw [length_bytesAt]
    have : x.val < r.val := Fin.not_le.mp hr
    omega
  -- one register, the destination
  | _ => exact writers_setV _ rfl

theorem Raises.sameControl (h : Raises s i f u) : SameControl s u := by
  cases h with
  | ldRegs x h => rw [State.forgetRegs_eq]; exact ⟨rfl, rfl, rfl, rfl, rfl⟩
  | _ => exact ⟨rfl, rfl, rfl, rfl, rfl⟩

theorem Updates.sameControl (h : Updates s i u) : SameControl s u := by
  cases h <;> exact ⟨rfl, rfl, rfl, rfl, rfl⟩

theorem Answers.writers (h : Answers s i t) : Writers i s t := by
  cases h with
  | raised h => exact { h.writers with }
  | skipped h => rw [State.skipIf_eq]; exact { writers_refl i s with }
  | advanced h => exact { h.writers with }
  | waiting x h => exact { writers_refl _ s with keyWait := .inr ⟨x, rfl⟩ }
  -- PC and the call stack only
  | _ => exact { writers_refl _ s with }

/-- The call stack is the same but in 2NNN and 00EE (R24). -/
theorem Answers.stack (h : Answers s i t) : (t.stack = s.stack ∧ t.sp = s.sp) ∨ (∃ nnn, i = .call nnn) ∨ i = .ret := by
  cases h with
  | raised h => exact .inl ⟨h.sameControl.stack, h.sameControl.sp⟩
  | skipped h => rw [State.skipIf_eq]; exact .inl ⟨rfl, rfl⟩
  | advanced h => exact .inl ⟨h.sameControl.stack, h.sameControl.sp⟩
  | called nnn h => exact .inr (.inl ⟨nnn, rfl⟩)
  | returned h => exact .inr (.inr rfl)
  | _ => exact .inl ⟨rfl, rfl⟩

/-- Settles O46: the registers' field of `Writers`. -/
theorem onlyDestinationsAndFlagsChangeRegisters : Obligations.OnlyDestinationsAndFlagsChangeRegisters :=
  fun _ _ _ r h hd hF => (answers_iff_exec.mpr h).writers.regs r hd hF

/-- Settles O47: the other fields of `Writers`, and the call stack. -/
theorem eachPartHasItsWriters : Obligations.EachPartHasItsWriters := by
  intro i s t h
  have ha : Answers s i t := answers_iff_exec.mpr h
  obtain ⟨-, idx, mem, fb, dt, st, keyWait, keys⟩ := ha.writers
  exact ⟨idx, ha.stack, mem, fb, dt, st, keyWait, keys⟩

/-! ## ST is read by no instruction (R26) -/

/-- The states of a fatal error do not depend on ST. -/
theorem Raises.setSt (h : Raises s i f u) (b : Byte) : Raises (s.setSt b) i f (u.setSt b) := by
  cases h with
  | ldRegs x h =>
    have e : (s.forgetRegs s.idx.toNat x).setSt b = (s.setSt b).forgetRegs s.idx.toNat x := by
      simp only [State.forgetRegs]; split <;> rfl
    rw [e]
    exact .ldRegs (s := s.setSt b) x h
  | _ => constructor <;> assumption

theorem State.setSt_skipIf (s : State) (b : Byte) (taken : Bool) :
    (s.skipIf taken).setSt b = (s.setSt b).skipIf taken := by
  cases taken <;> rfl

theorem Skips.setSt (h : Skips s i taken) (b : Byte) : Skips (s.setSt b) i taken := by
  cases h <;> constructor <;> assumption

/-- An update does not depend on ST, and only FX18 writes it. -/
theorem Updates.setSt (h : Updates s i u) (hi : ∀ x, i ≠ .ldStVx x) (b : Byte) :
    Updates (s.setSt b) i (u.setSt b) := by
  cases h with
  | ldStVx x => exact absurd rfl (hi x)
  -- the same row of the relation, which mentions no ST
  | _ => constructor <;> assumption

theorem Answers.setSt (h : Answers s i t) (hi : ∀ x, i ≠ .ldStVx x) (b : Byte) :
    Answers (s.setSt b) i (t.setSt b) := by
  cases h with
  | raised h => exact .raised (h.setSt b)
  | skipped h =>
    rw [State.setSt_skipIf]
    exact .skipped (h.setSt b)
  | advanced h => exact .advanced (h.setSt hi b)
  | jumped nnn => exact .jumped (s := s.setSt b) nnn
  | jumpedByV0 nnn => exact .jumpedByV0 (s := s.setSt b) nnn
  | called nnn h => exact .called (s := s.setSt b) nnn h
  | returned h => exact .returned (s := s.setSt b) h
  | waiting x h => exact .waiting (s := s.setSt b) x h

/-- Settles O48: what an instruction answers does not depend on ST, and FX18 overwrites it. -/
theorem noInstructionReadsTheSoundTimer : Obligations.NoInstructionReadsTheSoundTimer := by
  intro i s t b h
  refine ⟨fun hi => ((answers_iff_exec.mpr h).setSt hi b).exec_eq, ?ldStVx⟩
  case ldStVx =>
    rintro x rfl
    exact h

/-! ## The ports and the state after RESET (R34, R39) -/

/-- Settles O45: each port is its field, and `status` shows err only when halted. -/
theorem portsShowTheState : Obligations.PortsShowTheState := by
  intro s
  refine ⟨?sound, rfl, rfl, rfl, rfl, ?status⟩
  case sound => simp [soundOn, BitVec.toNat_eq]
  case status => cases h : s.halted <;> simp [statusPort, h]

/-- The package's reset state is the one RESET leaves with the default FONT. -/
theorem State.reset_eq_resetWith : State.reset = State.resetWith Config.font := by
  rw [State.resetWith, Memory.seeded_default]; rfl

theorem resetWith_resetValues (font : Font) : ResetValues font (State.resetWith font) := by
  have glyphs (d : Fin 16) (k : Fin 5) :
      Memory.read (Memory.seeded font) (5 * d.val + k.val) = font[5 * d.val + k.val]'(by omega) :=
    Memory.read_seeded_font font (by omega)
  have rest (a : Nat) (ha : 0x050 ≤ a) (_ : a ≤ 0xFFF) : Memory.read (Memory.seeded font) a = 0 :=
    Memory.read_seeded_rest font ha
  have registers (r : Reg) : (State.resetWith font).getV r = 0 :=
    Vector.getElem_replicate (i := r.val) r.isLt
  have slots (k : Fin 16) : (State.resetWith font).stack[k] = 0 :=
    Vector.getElem_replicate (i := k.val) k.isLt
  have pixels (x : Fin 64) (y : Fin 32) : pixel (State.resetWith font) x y = false := by
    simp [pixel, State.resetWith, State.reset]
  have keys (k : Nat) : keyDown k (State.resetWith font) = false := by
    simp [keyDown, State.resetWith, State.reset]
  exact ⟨glyphs, rest, registers, rfl, rfl, rfl, slots, rfl, rfl, pixels, keys, rfl, rfl, rfl⟩

/-- Settles O16: with any FONT the values are those of `State.resetWith`, of which `State.reset` is one. -/
theorem resetStateHoldsTheResetValues : Obligations.ResetStateHoldsTheResetValues := by
  refine ⟨resetWith_resetValues, ?_⟩
  rw [State.reset_eq_resetWith]
  exact resetWith_resetValues Config.font

/-! ## The invariant (R40): the state after RESET -/

theorem resetWith_inv (font : Font) : (State.resetWith font).Inv where
  memCanonical := Memory.wf_seeded font
  pcBound := show (0x200 : Word).toNat ≤ 0x10FE by decide
  returnBound := fun _ h => absurd h (Nat.not_lt_zero _)
  waiting := nofun
  waitingStarted := nofun
  haltedError := nofun
  runningError := fun _ => rfl

/-- Settles O52: the invariant does not speak of the schedule. -/
theorem invariantHoldsAfterReset : Obligations.InvariantHoldsAfterReset := by
  intro font schedule
  exact { resetWith_inv font with }

/-! ## The invariant: what an instruction keeps -/

/-- A store at the addresses of Mem keeps the canonical form, and so does forgetting one. -/
theorem Answers.wf (h : Answers s i t) (hs : Memory.wf s.mem = true) : Memory.wf t.mem = true := by
  cases h with
  | raised h =>
    cases h with
    | ldB x h => exact State.wf_forgetMem hs _ _
    | stRegs x h => exact State.wf_forgetMem hs _ _
    | ldRegs x h => rw [State.forgetRegs_eq]; exact hs
    | _ => exact hs
  | skipped h => rw [State.skipIf_eq]; exact hs
  | advanced h =>
    cases h with
    | ldB x h => exact Memory.wf_writeBytes hs _ (by rw [length_decimalDigits]; omega)
    | stRegs x h => exact Memory.wf_writeBytes hs _ (by rw [State.length_regsUpTo]; omega)
    | _ => exact hs
  | _ => exact hs

/-- Where an instruction can be fetched, PC does not wrap in an advance or a skip. -/
theorem toNat_pc_add {w k : Word} (hw : w.toNat + 1 ≤ 0xFFF) (hk : k.toNat ≤ 4) :
    (w + k).toNat = w.toNat + k.toNat := by
  rw [BitVec.toNat_add]
  omega

theorem toNat_pc_add_le {w k : Word} (hw : w.toNat + 1 ≤ 0xFFF) (hk : k.toNat ≤ 4) : (w + k).toNat ≤ 0x1002 := by
  rw [toNat_pc_add hw hk]
  omega

theorem toNat_zextAddr_le (nnn : Addr) : (zextAddr nnn).toNat ≤ 0xFFF := by
  rw [BitVec.toNat_setWidth]
  omega

/-- Return addresses are at most 0x1000 (R74). -/
def ReturnsBounded (s : State) : Prop := ∀ k (h : k < s.sp.val), (entry s k h).toNat ≤ 0x1000

theorem ReturnsBounded.of_sameControl (hs : ReturnsBounded s) (h : SameControl s t) : ReturnsBounded t := by
  intro k hk
  have e : entry t k hk = entry s k (h.sp ▸ hk) := by simp only [entry, h.stack]
  rw [e]
  exact hs k _

theorem ReturnsBounded.push (hs : ReturnsBounded s) (w : Word) (h : s.sp.val < Config.stackDepth)
    (hw : w.toNat ≤ 0x1000) : ReturnsBounded (s.push w h) := by
  intro k hk
  simp only [entry, State.push_stack, Vector.getElem_set]
  split
  · exact hw
  · next hne =>
    have hlt : k < s.sp.val := by
      simp only [State.push_sp] at hk
      omega
    exact hs k hlt

theorem Answers.returnsBounded (h : Answers s i t) (hpc : s.pc.toNat + 1 ≤ 0xFFF) (hs : ReturnsBounded s) :
    ReturnsBounded t := by
  cases h with
  | raised h => exact (hs.of_sameControl h.sameControl :)
  | skipped h => rw [State.skipIf_eq]; exact hs
  | advanced h => exact (hs.of_sameControl h.sameControl :)
  | called nnn h =>
    have hret : (s.pc + 2).toNat = s.pc.toNat + 2 := toNat_pc_add hpc (by decide)
    exact hs.push _ h (by omega)
  | returned h => exact fun k hk => hs k (Nat.lt_of_lt_of_le hk (Nat.sub_le _ _))
  | _ => exact hs

theorem Answers.pc_le (h : Answers s i t) (hpc : s.pc.toNat + 1 ≤ 0xFFF) (hs : ReturnsBounded s) :
    t.pc.toNat ≤ 0x10FE := by
  cases h with
  | raised h =>
    rw [raise_eq, State.halt_pc, h.sameControl.pc]
    omega
  | skipped h =>
    have hskip : (s.pc + 4).toNat ≤ 0x1002 := toNat_pc_add_le hpc (by decide)
    have hnext : (s.pc + 2).toNat ≤ 0x1002 := toNat_pc_add_le hpc (by decide)
    rw [State.skipIf_eq, State.setPc_pc]
    split <;> omega
  | advanced h =>
    have hnext : (s.pc + 2).toNat ≤ 0x1002 := toNat_pc_add_le hpc (by decide)
    rw [State.advance_pc, h.sameControl.pc]
    omega
  | jumped nnn =>
    have haddr := toNat_zextAddr_le nnn
    rw [State.setPc_pc]
    omega
  | jumpedByV0 nnn =>
    have haddr := toNat_zextAddr_le nnn
    have hbyte : (zextByte (s.getV 0)).toNat ≤ 0xFF := by rw [BitVec.toNat_setWidth]; omega
    rw [State.setPc_pc, BitVec.toNat_add]
    omega
  | called nnn h =>
    have haddr := toNat_zextAddr_le nnn
    rw [State.setPc_pc]
    omega
  | returned h =>
    have htop : (s.top h).toNat ≤ 0x1000 := hs (s.sp.val - 1) (Nat.sub_lt h Nat.one_pos)
    rw [State.setPc_pc]
    omega
  | waiting x h =>
    rw [State.setKeyWait_pc]
    omega

/-- An instruction raises an error at its PC, or leaves `halted` and `err` alone (R28, R29, R111). -/
theorem Answers.status (h : Answers s i t) :
    (t.halted = true ∧ t.err.kind ≠ none ∧ t.err.pc = t.pc) ∨ (t.halted = s.halted ∧ t.err = s.err) := by
  cases h with
  | raised h => exact .inl ⟨rfl, Option.some_ne_none _, rfl⟩
  | skipped h => rw [State.skipIf_eq]; exact .inr ⟨rfl, rfl⟩
  | advanced h => exact .inr ⟨h.sameControl.halted, h.sameControl.err⟩
  | _ => exact .inr ⟨rfl, rfl⟩

/-- FX0A leaves keyWait set only by waiting, and then nothing else changes (R109). -/
theorem Answers.eq_of_keyWait {x : Reg} (h : Answers s (.ldVxK x) t) (ht : t.keyWait = true) :
    t = s.setKeyWait true := by
  cases h with
  | raised h => cases h
  | skipped h => cases h
  | advanced h => cases h; exact absurd ht Bool.false_ne_true
  | waiting x h => rfl

theorem Answers.started (h : Answers s i t) : t.started = s.started := by
  obtain ⟨t', ht', same⟩ := exec_sameSurroundings i s
  have e : t = t' := by
    rw [h.exec_eq] at ht'
    exact Host.Outcome.next.inj ht'
  rw [e, same.started]

/-- The instruction at PC keeps the invariant: only an FX0A is executed while keyWait is set. -/
theorem State.Inv.answers (hs : s.Inv) (running : s.halted = false) (started : s.started = true)
    (hpc : s.pc.toNat + 1 ≤ 0xFFF)
    (hi : decodeWord (wordOfBytes (Memory.read s.mem s.pc.toNat) (Memory.read s.mem (s.pc.toNat + 1))) = some i)
    (h : Answers s i t) : t.Inv := by
  have onlyWait (hw : s.keyWait = true) : ∃ x, i = .ldVxK x := by
    obtain ⟨-, x, hx, -⟩ := hs.waiting hw
    exact ⟨x, Option.some.inj (hi.symm.trans hx)⟩
  have waits (ht : t.keyWait = true) : ∃ x, i = .ldVxK x ∧ t = s.setKeyWait true := by
    obtain ⟨x, rfl⟩ : ∃ x, i = .ldVxK x := h.writers.keyWait.elim (fun e => onlyWait (e ▸ ht)) id
    exact ⟨x, rfl, h.eq_of_keyWait ht⟩
  have hstarted : t.started = true := h.started.trans started
  constructor
  case memCanonical => exact h.wf hs.memCanonical
  case pcBound => exact h.pc_le hpc hs.returnBound
  case returnBound => exact h.returnsBounded hpc hs.returnBound
  case waiting =>
    intro ht
    obtain ⟨x, rfl, rfl⟩ := waits ht
    exact ⟨running, x, hi, hpc⟩
  case waitingStarted => exact fun _ => hstarted
  case haltedError =>
    intro ht
    obtain ⟨-, hkind, herr⟩ | ⟨hh, -⟩ := h.status
    · exact ⟨hkind, herr, hstarted⟩
    · exact absurd ((hh.trans running).symm.trans ht) Bool.false_ne_true
  case runningError =>
    intro ht
    obtain ⟨hh, -⟩ | ⟨-, herr⟩ := h.status
    · exact absurd (ht.symm.trans hh) Bool.false_ne_true
    · rw [herr, hs.runningError running]

/-! ## The invariant: what a transaction keeps -/

/-- A fatal error at PC, outside a key wait, keeps the invariant. -/
theorem State.Inv.halt (hs : s.Inv) (hw : s.keyWait = false) (started : s.started = true) {e : ErrRecord}
    (hkind : e.kind ≠ none) (hpc : e.pc = s.pc) : (s.halt e).Inv :=
  { hs with
    waiting := fun h => absurd (hw.symm.trans h) Bool.false_ne_true
    haltedError := fun _ => ⟨hkind, hpc, started⟩
    runningError := nofun }

theorem State.Inv.markStarted (hs : s.Inv) : s.markStarted.Inv :=
  { hs with
    waitingStarted := fun _ => rfl
    haltedError := fun h => ⟨(hs.haltedError h).1, (hs.haltedError h).2.1, rfl⟩ }

/-- A STEP meets an error before it executes only outside a key wait: in one, an FX0A stands at PC. -/
theorem stepTransaction_inv (hs : s.Inv) (h : stepTransaction s = .next t) : t.Inv := by
  obtain ⟨-, e⟩ | ⟨-, hpc, e⟩ | ⟨hh, hpc, w, rfl, ⟨hnone, e⟩ | ⟨i, hi, e⟩⟩ := stepTransaction_cases s
  · obtain rfl := Host.Outcome.next.inj (e.symm.trans h)
    exact hs
  · obtain rfl := Host.Outcome.next.inj (e.symm.trans h)
    have hw : s.keyWait = false := by
      refine Bool.eq_false_iff.mpr fun hw => ?_
      obtain ⟨-, x, -, hvalid⟩ := hs.waiting hw
      omega
    exact { hs.markStarted.halt hw rfl (Option.some_ne_none _) rfl with }
  · obtain rfl := Host.Outcome.next.inj (e.symm.trans h)
    have hw : s.keyWait = false := by
      refine Bool.eq_false_iff.mpr fun hw => ?_
      obtain ⟨-, x, hx, -⟩ := hs.waiting hw
      exact Option.some_ne_none _ (hx.symm.trans hnone)
    exact hs.markStarted.halt hw rfl (Option.some_ne_none _) rfl
  · exact hs.markStarted.answers hh rfl hpc hi (answers_iff_exec.mpr (e.symm.trans h))

theorem setKey_inv (hs : s.Inv) (k : Nat) (pressed : Bool) : (setKey k pressed s).2.Inv := by
  rw [setKey]
  split
  · exact { hs with }
  · exact hs

/-- A LOAD that is taken meets no key wait, since no STEP has run (R135). -/
theorem load_inv (hs : s.Inv) (bytes : List Byte) : (load bytes s).2.Inv := by
  rw [load]
  split
  · exact hs
  · next hstarted =>
    split
    · exact hs
    · next hfits =>
      exact
        { hs with
          memCanonical := Memory.wf_writeBytes hs.memCanonical bytes (by omega)
          waiting := fun hw => absurd (hs.waitingStarted hw) hstarted }

theorem transact_inv (tr : Transaction) (hs : s.Inv) (h : transact tr s = .next t) : t.Inv := by
  cases tr with
  | step => exact stepTransaction_inv hs h
  | tick =>
    obtain rfl := Host.Outcome.next.inj h
    exact { hs with }
  | setKey k pressed =>
    obtain rfl := Host.Outcome.next.inj h
    exact setKey_inv hs k pressed
  | load bytes =>
    obtain rfl := Host.Outcome.next.inj h
    exact load_inv hs bytes
  | reset =>
    obtain rfl := Host.Outcome.next.inj h
    exact { resetWith_inv s.font with }

/-- Settles O53: whichever transaction is due, it keeps the invariant. -/
theorem everyStepKeepsTheInvariant : Obligations.EveryStepKeepsTheInvariant := by
  intro s t hs h
  obtain ⟨tr, u, due⟩ := exists_due s
  have hu : u.Inv := by
    rw [due_eq due]
    exact { hs with }
  exact transact_inv tr hu ((step_of_due due).symm.trans h)

/-- Settles O54: the invariant holds at reset and every step keeps it. -/
theorem reachableStatesMeetTheInvariant : Obligations.ReachableStatesMeetTheInvariant :=
  fun _ h => h.induct invariantHoldsAfterReset everyStepKeepsTheInvariant

end Sys2Proof.Machine

/-! PROOFS. Memory (20_memory.md): a read after a write (R43), the fetch of bytes just stored (R45, R46, R56), and the
fetch outside memory (R48). -/

namespace Sys2Proof.Machine

variable {s u : State}

/-! ## Read after write (R43) -/

/-- A write at one address changes no read at another, valid or not. -/
theorem memRead_setMem_write_ne {a c : Nat} (h : c ≠ a) (b : Byte) (s : State) :
    memRead c (s.setMem (Memory.write s.mem a b)) = memRead c s := by
  rcases Nat.lt_or_ge 0xFFF c with hc | hc
  · rw [memRead_invalid hc, memRead_invalid hc]
  · rw [memRead_valid hc, memRead_valid hc, State.setMem_mem, Memory.read_write_ne h.symm]

/-- Settles O36: at a valid address by the laws of Mem as a canonical list, above by the bound check. -/
theorem memoryReadsWhatWasWritten : Obligations.MemoryReadsWhatWasWritten := by
  intro a b s hwf
  refine ⟨fun ha => ?valid, fun ha => ⟨memWrite_invalid ha b s, memRead_invalid ha s⟩⟩
  case valid =>
    refine ⟨_, memWrite_valid ha b s, ?same, Memory.wf_write hwf (by omega) b,
      fun _ hc => memRead_setMem_write_ne hc b s, rfl⟩
    case same => rw [memRead_valid ha, State.setMem_mem, Memory.read_write_self hwf]

/-! ## The STEP that is due: an instruction, or a fetch outside memory (R45, R48) -/

/-- A STEP of a running block executes what the two bytes at PC decode to. -/
theorem step_of_decoded (due : StepDue s u) (running : u.halted = false) (hpc : u.pc.toNat + 1 ≤ 0xFFF) {i : Instr}
    (hi : decodeWord (wordOfBytes (Memory.read u.mem u.pc.toNat) (Memory.read u.mem (u.pc.toNat + 1))) = some i) :
    step s = exec i u.markStarted := by
  rw [step_of_stepDue due, stepTransaction_running running, fetchAndRun_valid (s := u.markStarted) hpc]
  exact runWord_some hi _

/-- A STEP of a running block whose PC or PC + 1 is outside memory raises OutOfBoundsAccess at the fetch. -/
theorem step_of_fetchOutside (due : StepDue s u) (running : u.halted = false) (hpc : 0xFFF < u.pc.toNat + 1) :
    step s = .next (raiseAtFetch .outOfBoundsAccess u.markStarted) := by
  rw [step_of_stepDue due, stepTransaction_running running]
  exact fetchAndRun_invalid (s := u.markStarted) hpc

/-- A fetch fault changes `halted`, `err` and the count of free values only. -/
theorem frame_raiseAtFetch (f : Fault) (s : State) : Frame [.fault, .frees] noReg s (raiseAtFetch f s) := by
  constructor
  case fault => intro h; exact absurd (by decide) h
  case stack => intro _; exact ⟨rfl, rfl⟩
  case frees => intro h; exact absurd (by decide) h
  all_goals intros; exact rfl

/-- Settles O7: the fetch raises before an opcode is formed, and raising there has the frame above. -/
theorem fetchOutsideMemoryFaults : Obligations.FetchOutsideMemoryFaults := by
  intro s u due running hpc
  exact ⟨_, step_of_fetchOutside due running (by omega), rfl, rfl, rfl, rfl, rfl, frame_raiseAtFetch _ u.markStarted⟩

/-! ## Stored bytes are fetched next (R46, R56) -/

/-- After FX55's store, address a + k holds V[k]. -/
theorem read_writeBytes_regsUpTo (hwf : Memory.wf s.mem = true) {a : Nat} {x k : Reg} (hk : k ≤ x)
    (ha : a + x.val ≤ 0xFFF) : Memory.read (Memory.writeBytes s.mem a (s.regsUpTo x)) (a + k.val) = s.getV k := by
  have hlen := s.length_regsUpTo x
  have hk' : k.val < (s.regsUpTo x).length := by
    rw [hlen]
    exact Nat.lt_succ_of_le hk
  rw [Memory.read_writeBytes_inside hwf _ (by omega) hk', State.getElem_regsUpTo]

/-- FX55 with X ≥ 1 leaves V[0] and V[1] at I and I + 1: the word there has V[0] as its high byte (R46). -/
theorem wordOfBytes_stored (hwf : Memory.wf s.mem = true) {a : Nat} {x : Reg} (hx : 1 ≤ x) (ha : a + x.val ≤ 0xFFF) :
    wordOfBytes (Memory.read (Memory.writeBytes s.mem a (s.regsUpTo x)) a)
      (Memory.read (Memory.writeBytes s.mem a (s.regsUpTo x)) (a + 1)) = wordOfBytes (s.getV 0) (s.getV 1) :=
  congrArg₂ wordOfBytes (read_writeBytes_regsUpTo hwf (Fin.zero_le x) ha) (read_writeBytes_regsUpTo hwf hx ha)

/-- Settles O37: I is the next PC, so the next fetch reads the two bytes FX55 stored first. -/
theorem storedBytesAreFetchedNext : Obligations.StoredBytesAreFetchedNext := by
  intro x s i running hsched hwf hx hidx hfits hi
  have hstore : s.idx.toNat + x.val ≤ 0xFFF := by
    rw [hidx, toNat_pc_add (by omega) (by decide)]
    exact hfits
  refine ⟨_, execStRegs_valid x hstore,
    step_of_decoded (u := (s.setMem _).advance) ?due ?running ?fetchable ?decodes⟩
  case due => exact .inl ⟨hsched, rfl⟩
  case running => exact running
  case fetchable =>
    rw [State.advance_pc, State.setMem_pc, ← hidx]
    omega
  case decodes =>
    rw [State.advance_pc, State.setMem_pc, ← hidx]
    exact (congrArg decodeWord (wordOfBytes_stored hwf hx hstore)).trans hi

end Sys2Proof.Machine

/-! PROOFS. The encoding (30_encoding.md): the decoder reads back every word the encoder writes and only those
(R57-R61), the words that match no pattern (R63), the rows of opcode_table.json (R61, R62), the STEP that decodes
(R60, R64), and the next PC (R67). -/

namespace Sys2Proof

variable {w : Word} {i : Instr}

/-! ## The decoder reads what the encoder writes (R58, R61) -/

/-- Each format's fields come back from its word, and the fixed bits select the instruction. -/
theorem decodeWord_encode (i : Instr) : decodeWord (encode i) = some i := by
  cases i with
  | cls | ret => rfl
  -- format A
  | jp nnn | call nnn | ldI nnn | jpV0 nnn => simp [encode, decodeWord]
  -- format XNN
  | seByte x nn | sneByte x nn | ldByte x nn | addByte x nn | rnd x nn => simp [encode, decodeWord]
  -- formats XY and XYN outside family 8
  | seReg x y | sneReg x y => simp [encode, decodeWord]
  | drw x y n => simp [encode, decodeWord]
  -- family 8: the function nibble
  | ldReg x y | orReg x y | andReg x y | xorReg x y | addReg x y | sub x y | shr x y | subn x y | shl x y =>
    simp [encode, decodeWord, decodeAlu]
  -- families E and F: the low byte
  | skp x | sknp x => simp [encode, decodeWord, decodeKey]
  | ldVxDt x | ldVxK x | ldDtVx x | ldStVx x | addI x | ldF x | ldB x | stRegs x | ldRegs x =>
    simp [encode, decodeWord, decodeMisc]

/-- Two bytes that spell a word that decodes are taken off the stream, and nothing else is (R57). -/
theorem decode_cons_cons {hi lo : Byte} (h : decodeWord (wordOfBytes hi lo) = some i) (rest : List Byte) :
    decode (hi :: lo :: rest) = .ok (i, rest) := by
  rw [decode, h]

/-- Settles O1: the two bytes spell the encoding, which the decoder reads back. -/
theorem decodeOfEncodeGivesInstructionBack : Obligations.DecodeOfEncodeGivesInstructionBack := by
  intro i rest
  refine decode_cons_cons ?_ rest
  rw [wordOfBytes_bytes, decodeWord_encode]

/-! ## A word that decodes is an encoding (R58, R61) -/

theorem formatA_of_fields {f : Nibble} (h3 : nib3 w = f) : formatA f (fieldNNN w) = w := by
  rw [← h3, formatA_fields]

theorem formatXNN_of_fields {f : Nibble} {nn : Byte} (h3 : nib3 w = f) (hnn : fieldNN w = nn) :
    formatXNN f (fieldX w) nn = w := by
  rw [← h3, ← hnn, formatXNN_fields]

theorem formatXYN_of_fields {f n : Nibble} (h3 : nib3 w = f) (h0 : nib0 w = n) :
    formatXYN f (fieldX w) (fieldY w) n = w := by
  rw [← h3, ← h0, formatXYN_fields]

/-- Family 8: whichever function nibble was tested, it is the one the encoder writes. -/
theorem encode_of_decodeAlu (h3 : nib3 w = 0x8) (h : decodeAlu w = some i) : encode i = w := by
  rw [decodeAlu] at h
  split_ifs at h <;> cases h
  all_goals exact formatXYN_of_fields h3 ‹_›

/-- Family E: whichever low byte was tested, it is the one the encoder writes. -/
theorem encode_of_decodeKey (h3 : nib3 w = 0xE) (h : decodeKey w = some i) : encode i = w := by
  rw [decodeKey] at h
  split_ifs at h <;> cases h
  all_goals exact formatXNN_of_fields h3 ‹_›

/-- Family F: whichever low byte was tested, it is the one the encoder writes. -/
theorem encode_of_decodeMisc (h3 : nib3 w = 0xF) (h : decodeMisc w = some i) : encode i = w := by
  rw [decodeMisc] at h
  split_ifs at h <;> cases h
  all_goals exact formatXNN_of_fields h3 ‹_›

/-- The family nibble selects the format, whose fields are the rest of the word. -/
theorem encode_of_decodeWord (h : decodeWord w = some i) : encode i = w := by
  rcases nibble_cases (nib3 w) with
    h3 | h3 | h3 | h3 | h3 | h3 | h3 | h3 | h3 | h3 | h3 | h3 | h3 | h3 | h3 | h3 <;>
  simp only [decodeWord, h3, BitVec.reduceEq, ↓reduceIte, Option.some.injEq] at h
  -- family 0: two whole words
  · split_ifs at h with hcls hret <;> cases h
    · exact hcls.symm
    · exact hret.symm
  -- families 1 to 4: two of format A, two of format XNN
  · exact h ▸ formatA_of_fields h3
  · exact h ▸ formatA_of_fields h3
  · exact h ▸ formatXNN_of_fields h3 rfl
  · exact h ▸ formatXNN_of_fields h3 rfl
  -- families 5 to 9: those of formats XY test the low nibble too
  · split_ifs at h with h0
    cases h
    exact formatXYN_of_fields h3 h0
  · exact h ▸ formatXNN_of_fields h3 rfl
  · exact h ▸ formatXNN_of_fields h3 rfl
  · exact encode_of_decodeAlu h3 h
  · split_ifs at h with h0
    cases h
    exact formatXYN_of_fields h3 h0
  -- families A to F
  · exact h ▸ formatA_of_fields h3
  · exact h ▸ formatA_of_fields h3
  · exact h ▸ formatXNN_of_fields h3 rfl
  · exact h ▸ formatXYN_of_fields h3 rfl
  · exact encode_of_decodeKey h3 h
  · exact encode_of_decodeMisc h3 h

/-- Settles O2: the fixed bits the decoder tested and the fields it read are the whole word, family by family. -/
theorem encodeOfDecodedWordGivesWordBack : Obligations.EncodeOfDecodedWordGivesWordBack :=
  fun _ _ h => encode_of_decodeWord h

/-! ## The words that match no pattern (R63) -/

/-- A test of the decoder leaves a word undecoded exactly when it fails and the tests after it do. -/
theorem ite_some_eq_none_iff {p : Prop} [Decidable p] {a : Instr} {tests : Option Instr} :
    (if p then some a else tests) = none ↔ ¬ p ∧ tests = none := by
  by_cases h : p <;> simp [h]

/-- Family 8: the function nibbles without an operation. -/
theorem decodeAlu_eq_none_iff : decodeAlu w = none ↔ nib0 w = 0x8 ∨ nib0 w = 0x9 ∨ nib0 w = 0xA ∨ nib0 w = 0xB ∨
    nib0 w = 0xC ∨ nib0 w = 0xD ∨ nib0 w = 0xF := by
  rcases nibble_cases (nib0 w) with
    h0 | h0 | h0 | h0 | h0 | h0 | h0 | h0 | h0 | h0 | h0 | h0 | h0 | h0 | h0 | h0 <;>
  simp [decodeAlu, h0]

theorem decodeKey_eq_none_iff : decodeKey w = none ↔ ¬ (fieldNN w = 0x9E ∨ fieldNN w = 0xA1) := by
  simp [decodeKey, ite_some_eq_none_iff]

theorem decodeMisc_eq_none_iff : decodeMisc w = none ↔
    ¬ (fieldNN w = 0x07 ∨ fieldNN w = 0x0A ∨ fieldNN w = 0x15 ∨ fieldNN w = 0x18 ∨ fieldNN w = 0x1E ∨
      fieldNN w = 0x29 ∨ fieldNN w = 0x33 ∨ fieldNN w = 0x55 ∨ fieldNN w = 0x65) := by
  simp [decodeMisc, ite_some_eq_none_iff]

/-- Settles O3: of the sixteen families six leave words undecoded, each by its own test. -/
theorem undecodedWordsAreExactlyTheListed : Obligations.UndecodedWordsAreExactlyTheListed := by
  intro w
  rw [← decodeAlu_eq_none_iff, ← decodeKey_eq_none_iff, ← decodeMisc_eq_none_iff]
  rcases nibble_cases (nib3 w) with
    h3 | h3 | h3 | h3 | h3 | h3 | h3 | h3 | h3 | h3 | h3 | h3 | h3 | h3 | h3 | h3 <;>
  simp [decodeWord, h3, ite_some_eq_none_iff]

/-! ## The rows of the opcode table (R61, R62) -/

/-- The encoder's word belongs to the instruction's row: `Laws.EncodeRow`, format by format. -/
theorem tableRow_selects_encode (i : Instr) : (tableRow i).selects (encode i) = true := by
  cases i with
  | cls | ret => rfl
  | jp nnn | call nnn | ldI nnn | jpV0 nnn => exact Laws.EncodeRow.formatA_selects _ _ rfl
  | seByte x nn | sneByte x nn | ldByte x nn | addByte x nn | rnd x nn =>
    exact Laws.EncodeRow.formatXNN_selects _ _ _ rfl
  | drw x y n => exact Laws.EncodeRow.drw x y n
  | seReg x y | sneReg x y | ldReg x y | orReg x y | andReg x y | xorReg x y | addReg x y | sub x y | shr x y
  | subn x y | shl x y => exact Laws.EncodeRow.formatXY_selects _ _ _ _ rfl
  | skp x | sknp x | ldVxDt x | ldVxK x | ldDtVx x | ldStVx x | addI x | ldF x | ldB x | stRegs x | ldRegs x =>
    exact Laws.EncodeRow.formatX_selects _ _ _ rfl

theorem TableRow.selects_iff {m fixed : Word} : (TableRow.mk m fixed).selects w = true ↔ w &&& m = fixed := beq_iff_eq

/-- A nibble of a masked word is the word's nibble under the mask's; so for the low byte. -/
theorem nib3_and (w m : Word) : nib3 (w &&& m) = nib3 w &&& nib3 m := BitVec.extractLsb'_and

theorem nib0_and (w m : Word) : nib0 (w &&& m) = nib0 w &&& nib0 m := BitVec.extractLsb'_and

theorem fieldNN_and (w m : Word) : fieldNN (w &&& m) = fieldNN w &&& fieldNN m := BitVec.extractLsb'_and

/-- A mask that covers the family nibble makes a row of one family. -/
theorem nib3_of_selects {m fixed : Word} (h : (TableRow.mk m fixed).selects w = true)
    (hm : nib3 m = BitVec.allOnes 4) : nib3 w = nib3 fixed := by
  rw [← TableRow.selects_iff.mp h, nib3_and, hm, BitVec.and_allOnes]

/-- A mask that covers the low nibble makes a row of one function nibble. -/
theorem nib0_of_selects {m fixed : Word} (h : (TableRow.mk m fixed).selects w = true)
    (hm : nib0 m = BitVec.allOnes 4) : nib0 w = nib0 fixed := by
  rw [← TableRow.selects_iff.mp h, nib0_and, hm, BitVec.and_allOnes]

/-- A mask that covers the low byte makes a row of one low byte. -/
theorem fieldNN_of_selects {m fixed : Word} (h : (TableRow.mk m fixed).selects w = true)
    (hm : fieldNN m = BitVec.allOnes 8) : fieldNN w = fieldNN fixed := by
  rw [← TableRow.selects_iff.mp h, fieldNN_and, hm, BitVec.and_allOnes]

/-- The words of a row with mask F000 are those of its family. -/
theorem nib3_of_selects_formatA {f : Nibble} (h : (TableRow.mk 0xF000 (formatA f 0)).selects w = true) :
    nib3 w = f :=
  (nib3_of_selects h (by decide)).trans (nib3_formatA f 0)

/-- The words of a row with mask F00F have its family and its function nibble. -/
theorem formatXY_of_selects {f n : Nibble} (h : (TableRow.mk 0xF00F (formatXYN f 0 0 n)).selects w = true) :
    formatXYN f (fieldX w) (fieldY w) n = w :=
  formatXYN_of_fields ((nib3_of_selects h (by decide)).trans (nib3_formatXYN f 0 0 n))
    ((nib0_of_selects h (by decide)).trans (nib0_formatXYN f 0 0 n))

/-- The words of a row with mask F0FF have its family and its low byte. -/
theorem formatX_of_selects {f : Nibble} {nn : Byte} (h : (TableRow.mk 0xF0FF (formatXNN f 0 nn)).selects w = true) :
    formatXNN f (fieldX w) nn = w :=
  formatXNN_of_fields ((nib3_of_selects h (by decide)).trans (nib3_formatXNN f 0 nn))
    ((fieldNN_of_selects h (by decide)).trans (fieldNN_formatXNN f 0 nn))

/-- A row with mask FFFF selects its fixed word only. -/
theorem eq_of_selects_allOnes {fixed : Word} (h : (TableRow.mk 0xFFFF fixed).selects w = true) : fixed = w :=
  (TableRow.selects_iff.mp h).symm.trans BitVec.and_allOnes

/-- A word of a row is the encoding of the row's instruction with the operands the word holds. -/
theorem exists_encode_of_selects {j : Instr} (h : (tableRow j).selects w = true) :
    ∃ i, encode i = w ∧ tableRow i = tableRow j := by
  cases j with
  | cls => exact ⟨.cls, eq_of_selects_allOnes h, rfl⟩
  | ret => exact ⟨.ret, eq_of_selects_allOnes h, rfl⟩
  -- format A, mask F000
  | jp nnn => exact ⟨.jp _, formatA_of_fields (nib3_of_selects_formatA h), rfl⟩
  | call nnn => exact ⟨.call _, formatA_of_fields (nib3_of_selects_formatA h), rfl⟩
  | ldI nnn => exact ⟨.ldI _, formatA_of_fields (nib3_of_selects_formatA h), rfl⟩
  | jpV0 nnn => exact ⟨.jpV0 _, formatA_of_fields (nib3_of_selects_formatA h), rfl⟩
  -- format XNN, mask F000
  | seByte x nn => exact ⟨.seByte _ _, formatXNN_of_fields (nib3_of_selects_formatA h) rfl, rfl⟩
  | sneByte x nn => exact ⟨.sneByte _ _, formatXNN_of_fields (nib3_of_selects_formatA h) rfl, rfl⟩
  | ldByte x nn => exact ⟨.ldByte _ _, formatXNN_of_fields (nib3_of_selects_formatA h) rfl, rfl⟩
  | addByte x nn => exact ⟨.addByte _ _, formatXNN_of_fields (nib3_of_selects_formatA h) rfl, rfl⟩
  | rnd x nn => exact ⟨.rnd _ _, formatXNN_of_fields (nib3_of_selects_formatA h) rfl, rfl⟩
  -- format XYN, mask F000
  | drw x y n => exact ⟨.drw _ _ _, formatXYN_of_fields (nib3_of_selects_formatA h) rfl, rfl⟩
  -- format XY, mask F00F
  | seReg x y => exact ⟨.seReg _ _, formatXY_of_selects h, rfl⟩
  | sneReg x y => exact ⟨.sneReg _ _, formatXY_of_selects h, rfl⟩
  | ldReg x y => exact ⟨.ldReg _ _, formatXY_of_selects h, rfl⟩
  | orReg x y => exact ⟨.orReg _ _, formatXY_of_selects h, rfl⟩
  | andReg x y => exact ⟨.andReg _ _, formatXY_of_selects h, rfl⟩
  | xorReg x y => exact ⟨.xorReg _ _, formatXY_of_selects h, rfl⟩
  | addReg x y => exact ⟨.addReg _ _, formatXY_of_selects h, rfl⟩
  | sub x y => exact ⟨.sub _ _, formatXY_of_selects h, rfl⟩
  | shr x y => exact ⟨.shr _ _, formatXY_of_selects h, rfl⟩
  | subn x y => exact ⟨.subn _ _, formatXY_of_selects h, rfl⟩
  | shl x y => exact ⟨.shl _ _, formatXY_of_selects h, rfl⟩
  -- one register, mask F0FF
  | skp x => exact ⟨.skp _, formatX_of_selects h, rfl⟩
  | sknp x => exact ⟨.sknp _, formatX_of_selects h, rfl⟩
  | ldVxDt x => exact ⟨.ldVxDt _, formatX_of_selects h, rfl⟩
  | ldVxK x => exact ⟨.ldVxK _, formatX_of_selects h, rfl⟩
  | ldDtVx x => exact ⟨.ldDtVx _, formatX_of_selects h, rfl⟩
  | ldStVx x => exact ⟨.ldStVx _, formatX_of_selects h, rfl⟩
  | addI x => exact ⟨.addI _, formatX_of_selects h, rfl⟩
  | ldF x => exact ⟨.ldF _, formatX_of_selects h, rfl⟩
  | ldB x => exact ⟨.ldB _, formatX_of_selects h, rfl⟩
  | stRegs x => exact ⟨.stRegs _, formatX_of_selects h, rfl⟩
  | ldRegs x => exact ⟨.ldRegs _, formatX_of_selects h, rfl⟩

/-- Settles O4: a word of the row is an encoding, which decodes; a word that decodes is an encoding, which belongs to
its row. -/
theorem decodingIsSelectedByTheTableRow : Obligations.DecodingIsSelectedByTheTableRow := by
  intro w j
  constructor
  case mp =>
    intro h
    obtain ⟨i, rfl, hrow⟩ := exists_encode_of_selects h
    exact ⟨i, decodeWord_encode i, hrow⟩
  case mpr =>
    rintro ⟨i, hi, hrow⟩
    rw [← hrow, ← encode_of_decodeWord hi]
    exact tableRow_selects_encode i

/-! ## Words written out (R61, R64) -/

/-- Settles O5: nine closed words, decoded. -/
theorem wordsWrittenOutDecode : Obligations.WordsWrittenOutDecode := by
  unfold Obligations.WordsWrittenOutDecode
  decide

end Sys2Proof

namespace Sys2Proof.Machine

variable {s t u : State} {i : Instr} {w : Word}

/-! ## The STEP that decodes (R60, R64) -/

/-- Settles O6: `markStarted` sets the mark that a STEP ran. -/
theorem stepRunsDecodedInstruction : Obligations.StepRunsDecodedInstruction :=
  fun _ _ _ due running hpc hi => step_of_decoded due running hpc hi

/-- A STEP of a running block raises UnknownOpcode on a word that matches no pattern. -/
theorem step_of_undecoded (due : StepDue s u) (running : u.halted = false) (hpc : u.pc.toNat + 1 ≤ 0xFFF)
    (hw : w = wordOfBytes (Memory.read u.mem u.pc.toNat) (Memory.read u.mem (u.pc.toNat + 1)))
    (hnone : decodeWord w = none) : step s = .next (raise .unknownOpcode w u.markStarted) := by
  subst hw
  rw [step_of_stepDue due, stepTransaction_running running, fetchAndRun_valid (s := u.markStarted) hpc]
  exact runWord_none hnone _

/-- A fatal error changes `halted` and `err` only (R111). -/
theorem frame_raise (f : Fault) (op : Word) (s : State) : Frame [.fault] noReg s (raise f op s) := by
  constructor
  case fault => intro h; exact absurd (by decide) h
  case stack => intro _; exact ⟨rfl, rfl⟩
  all_goals intros; exact rfl

/-- Settles O8: the error is raised before anything executes. -/
theorem illegalWordFaults : Obligations.IllegalWordFaults := by
  intro s u w due running hpc hw hnone
  exact ⟨_, step_of_undecoded due running hpc hw hnone, ⟨rfl, rfl, rfl⟩, frame_raise _ _ u.markStarted⟩

/-! ## The next PC (R67) -/

/-- When no key is found, none is down: numbers above 15 are no keys. -/
theorem keyDown_eq_false_of_anyKey (h : anyKey s = none) (k : Nat) : keyDown k s = false := by
  by_cases hk : k < 16
  · exact (anyKey_none s).mp h k hk
  · exact dif_neg hk

/-- A skip goes to PC + 4 exactly when it is taken. -/
theorem State.skipIf_pc_of_iff {p : Prop} [Decidable p] (s : State) {taken : Bool} (h : taken = true ↔ p) :
    (s.skipIf taken).pc = if p then s.pc + 4 else s.pc + 2 := by
  simp [State.skipIf_eq, h]

/-- A skip of the opposite test goes to PC + 2 exactly when the test succeeds. -/
theorem State.skipIf_pc_of_not_iff {p : Prop} [Decidable p] (s : State) {taken : Bool} (h : taken = false ↔ p) :
    (s.skipIf taken).pc = if p then s.pc + 2 else s.pc + 4 := by
  rw [s.skipIf_pc_of_iff (p := ¬ p) (by rw [← h, Bool.not_eq_false]), ite_not]

theorem toNat_zextAddr (nnn : Addr) : (zextAddr nnn).toNat = nnn.toNat := BitVec.toNat_setWidth_of_le (by decide)

/-- BNNN's target does not wrap: a 12-bit address and a byte (R79). -/
theorem toNat_jpV0_target (nnn : Addr) (b : Byte) : (zextAddr nnn + zextByte b).toNat = nnn.toNat + b.toNat := by
  have hbyte : (zextByte b).toNat = b.toNat := BitVec.toNat_setWidth_of_le (by decide)
  rw [BitVec.toNat_add, toNat_zextAddr, hbyte]
  omega

/-- Settles O49: an answer is a fatal error, or PC moves as the way it was answered says: by the skip's test, by 2
after an update, to the target of a jump, CALL or RET, or not at all in a key wait. -/
theorem nextPcIsAsTheTableSays : Obligations.NextPcIsAsTheTableSays := by
  intro i s t h running
  have ha : Answers s i t := answers_iff_exec.mpr h
  cases ha with
  | raised hraise => exact .inl ⟨rfl, hraise.sameControl.pc⟩
  | jumped nnn => exact .inr ⟨running, toNat_zextAddr nnn⟩
  | jumpedByV0 nnn => exact .inr ⟨running, toNat_jpV0_target nnn _⟩
  | called nnn hroom => exact .inr ⟨running, toNat_zextAddr nnn⟩
  | returned hsp => exact .inr ⟨running, Nat.sub_lt hsp Nat.one_pos, rfl⟩
  | waiting x hnone =>
    exact .inr ⟨running,
      fun ⟨k, hk⟩ => absurd ((keyDown_eq_false_of_anyKey hnone k).symm.trans hk) Bool.false_ne_true, fun _ => rfl⟩
  | skipped hskip =>
    refine .inr ⟨by rw [State.skipIf_eq]; exact running, ?_⟩
    cases hskip with
    | seByte x nn => exact s.skipIf_pc_of_iff beq_iff_eq
    | sneByte x nn => exact s.skipIf_pc_of_not_iff bne_eq_false_iff_eq
    | seReg x y => exact s.skipIf_pc_of_iff beq_iff_eq
    | sneReg x y => exact s.skipIf_pc_of_not_iff bne_eq_false_iff_eq
    | skp x hx => exact s.skipIf_pc_of_iff Iff.rfl
    | sknp x hx => exact s.skipIf_pc_of_not_iff (by rw [Bool.not_eq_false'])
  | advanced hupdate =>
    have hpc := congrArg (· + 2) hupdate.sameControl.pc
    refine .inr ⟨hupdate.sameControl.halted.trans running, ?_⟩
    cases hupdate with
    | ldVxK x k hkey =>
      have ⟨_, hdown, _⟩ := anyKey_some hkey
      exact ⟨fun _ => rfl, fun hnone => absurd ((hnone k).symm.trans hdown) Bool.false_ne_true⟩
    -- the rows that say PC + 2
    | _ => exact hpc

end Sys2Proof.Machine

/-! PROOFS. Control flow (40_control_flow.md): return, jump, call, the skips and the indexed jump (R72-R79), and a CALL
followed by its RET (C1). The shared facts come first: what setting PC, a skip, a push and a pop leave unchanged, and the
stack's entries after a push. -/

namespace Sys2Proof

/-- A word is decoded to the instruction whose encoding it is. -/
theorem decodeWord_of_encode {w : Word} {i : Instr} (h : encode i = w) : decodeWord w = some i :=
  h ▸ decodeWord_encode i

end Sys2Proof

namespace Sys2Proof.Machine

variable {s t : State} {parts : List Part} {written : Reg → Prop}

/-! ## Frames of PC and of the call stack -/

/-- PC is outside every frame. -/
theorem Frame.setPc (h : Frame parts written s t) (w : Word) : Frame parts written s (t.setPc w) := { h with }

theorem Frame.refl (s : State) : Frame parts written s s := by
  constructor
  case stack => intro _; exact ⟨rfl, rfl⟩
  case fault => intro _; exact ⟨rfl, rfl⟩
  all_goals intros; exact rfl

theorem frame_setPc (s : State) (w : Word) : Frame [] noReg s (s.setPc w) := (Frame.refl s).setPc w

theorem frame_skipIf (s : State) (taken : Bool) : Frame [] noReg s (s.skipIf taken) := by
  rw [State.skipIf_eq]
  exact frame_setPc s _

theorem frame_push (s : State) (w : Word) (h : s.sp.val < Config.stackDepth) :
    Frame [.stack] noReg s (s.push w h) :=
  { Frame.refl s with stack := fun hs => absurd (List.mem_singleton_self _) hs }

theorem frame_drop (s : State) : Frame [.stack] noReg s s.drop :=
  { Frame.refl s with stack := fun hs => absurd (List.mem_singleton_self _) hs }

/-! ## The entries of the call stack (R24) -/

/-- The top entry is the one just below SP. -/
theorem State.top_eq_entry (s : State) (h : 0 < s.sp.val) :
    s.top h = entry s (s.sp.val - 1) (Nat.sub_lt h Nat.one_pos) := rfl

/-- A push writes the slot SP and no other. -/
theorem State.getElem_push_stack (s : State) (w : Word) (h : s.sp.val < Config.stackDepth) (k : Fin 16) :
    (s.push w h).stack[k] = if k.val = s.sp.val then w else s.stack[k] := by
  simp [Vector.getElem_set, eq_comm]

theorem State.top_push (s : State) (w : Word) (h : s.sp.val < Config.stackDepth)
    (hpos : 0 < (s.push w h).sp.val) : (s.push w h).top hpos = w := by
  simp [State.top]

/-- A pop gives SP back its value from before the push. -/
theorem State.sp_drop_push (s : State) (w : Word) (h : s.sp.val < Config.stackDepth) :
    (s.push w h).drop.sp = s.sp := rfl

/-- A push writes no entry that was there. -/
theorem State.entry_push (s : State) (w : Word) (h : s.sp.val < Config.stackDepth) {k : Nat} (hk : k < s.sp.val)
    (hk' : k < (s.push w h).sp.val) : entry (s.push w h) k hk' = entry s k hk :=
  Vector.getElem_set_ne h _ (Nat.ne_of_gt hk)

/-! ## Return and call (R72, R74, C1) -/

/-- Settles O18: RET pops with an entry on the stack, and raises without one. -/
theorem returnPopsOrUnderflows : Obligations.ReturnPopsOrUnderflows := by
  refine ⟨decodeWord_encode .ret, fun s h => ?entry, fun s h => ?empty⟩
  case entry => exact ⟨_, execRet_entry h, rfl, s.top_eq_entry h, fun _ _ _ => rfl, (frame_drop s).setPc _⟩
  case empty => exact ⟨_, execRet_empty h, ⟨rfl, rfl, rfl⟩, frame_raise _ _ s⟩

/-- Settles O20: CALL pushes with room on the stack, and raises without. -/
theorem callPushesOrOverflows : Obligations.CallPushesOrOverflows := by
  refine ⟨fun w h3 => decodeWord_of_encode (formatA_of_fields h3), fun nnn s h => ?room, fun nnn s h => ?full⟩
  case room =>
    exact ⟨_, execCall_room nnn h, toNat_zextAddr nnn, rfl, s.getElem_push_stack _ h, (frame_push s _ h).setPc _⟩
  case full => exact ⟨_, execCall_full nnn h, ⟨rfl, rfl, rfl⟩, frame_raise _ _ s⟩

/-- Settles O21: the top entry after the push is PC + 2, and neither the push nor the pop touches an entry below. -/
theorem callThenReturnComesBack : Obligations.CallThenReturnComesBack := by
  intro nnn s h
  refine ⟨_, _, execCall_room nnn h, execRet_entry (Nat.succ_pos _), ?pc, s.sp_drop_push (s.pc + 2) h, ?entries⟩
  case pc => exact s.top_push (s.pc + 2) h (Nat.succ_pos _)
  case entries => exact fun k hk _ => s.entry_push (s.pc + 2) h hk (Nat.lt_succ_of_lt hk)

/-! ## Jumps (R73, R79) -/

/-- Settles O19: JP sets PC to its 12-bit field and nothing else. -/
theorem jumpSetsPc : Obligations.JumpSetsPc :=
  ⟨fun _ h3 => decodeWord_of_encode (formatA_of_fields h3),
    fun nnn s => ⟨_, rfl, toNat_zextAddr nnn, frame_setPc s _⟩⟩

/-- Settles O24: a 12-bit address and a byte add up without a wrap. -/
theorem indexedJumpAddsV0 : Obligations.IndexedJumpAddsV0 :=
  ⟨fun _ h3 => decodeWord_of_encode (formatA_of_fields h3),
    fun nnn s => ⟨_, rfl, toNat_jpV0_target nnn (s.getV 0), frame_setPc s _⟩⟩

/-! ## Skips (R75-R78) -/

/-- A skip instruction whose test decides `p` goes to PC + 4 if `p`, else PC + 2, and changes nothing else. -/
theorem Skips.pc_and_frame {i : Instr} {taken : Bool} (h : Skips s i taken) {p : Prop} [Decidable p]
    (hp : taken = true ↔ p) :
    ∃ t, exec i s = .next t ∧ t.pc = (if p then s.pc + 4 else s.pc + 2) ∧ Frame [] noReg s t :=
  ⟨_, h.exec_eq, s.skipIf_pc_of_iff hp, frame_skipIf s taken⟩

/-- Settles O22: both are skips on V[X] against the immediate. -/
theorem skipsOnImmediate : Obligations.SkipsOnImmediate :=
  ⟨fun _ h3 => decodeWord_of_encode (formatXNN_of_fields h3 rfl),
    fun _ h3 => decodeWord_of_encode (formatXNN_of_fields h3 rfl),
    fun x nn _ => (Skips.seByte x nn).pc_and_frame beq_iff_eq,
    fun x nn _ => (Skips.sneByte x nn).pc_and_frame bne_iff_ne⟩

/-- Settles O23: both are skips on V[X] against V[Y]; a low nibble other than 0 is listed as undecoded (R63). -/
theorem skipsOnRegisters : Obligations.SkipsOnRegisters :=
  ⟨fun _ h3 h0 => decodeWord_of_encode (formatXYN_of_fields h3 h0),
    fun _ h3 h0 => decodeWord_of_encode (formatXYN_of_fields h3 h0),
    fun w h3 h0 => (undecodedWordsAreExactlyTheListed w).mpr (.inl ⟨h3, h0⟩),
    fun x y _ => (Skips.seReg x y).pc_and_frame beq_iff_eq,
    fun x y _ => (Skips.sneReg x y).pc_and_frame bne_iff_ne⟩

end Sys2Proof.Machine

/-! PROOFS. Registers and ALU (41_register_alu.md): loads, arithmetic and logic, the flags, the shifts in place, and the
random byte (R81-R92). The shared facts come first: what writing one register, and drawing a byte, leave unchanged, and
the numbers that flags and differences hold. -/

namespace Sys2Proof.Machine

variable {s t : State} {parts : List Part} {written : Reg → Prop}

/-! ## Writing one register -/

/-- A frame that lists a register stands when the register is written. -/
theorem Frame.setV (h : Frame parts written s t) {x : Reg} (hx : written x) (b : Byte) :
    Frame parts written s (t.setV x b) :=
  { h with
    regs := fun r hr => by
      have hne : r ≠ x := fun e => hr (e ▸ hx)
      rw [State.getV_setV, if_neg hne, h.regs r hr] }

/-- Writing V[X] and advancing stays in a frame that lists X only. -/
theorem Frame.setV_advance {x : Reg} (h : Frame parts (· = x) s t) (b : Byte) :
    Frame parts (· = x) s (t.setV x b).advance :=
  (h.setV (x := x) rfl b).setPc _

theorem State.getV_setV_advance_self (s : State) (x : Reg) (b : Byte) : (s.setV x b).advance.getV x = b := by
  simp

/-- Settles O25: one register is written, with the byte or with BitVec's sum, which is modulo 256. -/
theorem immediateLoadAndAdd : Obligations.ImmediateLoadAndAdd := by
  refine ⟨fun w h3 => decodeWord_of_encode (formatXNN_of_fields h3 rfl),
    fun w h3 => decodeWord_of_encode (formatXNN_of_fields h3 rfl), fun x nn s => ?load, fun x nn s => ?add⟩
  case load =>
    exact ⟨_, (Updates.ldByte x nn).exec_eq, s.getV_setV_advance_self x nn, rfl, (Frame.refl s).setV_advance nn⟩
  case add =>
    refine ⟨_, (Updates.addByte x nn).exec_eq, ?_, rfl, (Frame.refl s).setV_advance _⟩
    rw [State.getV_setV_advance_self, BitVec.toNat_add]

/-- Settles O26: one register is written, with V[Y] or with the combination of V[X] and V[Y], read bit by bit. -/
theorem copyAndLogic : Obligations.CopyAndLogic := by
  refine ⟨fun w h3 h0 => decodeWord_of_encode (formatXYN_of_fields h3 h0),
    fun w h3 h0 => decodeWord_of_encode (formatXYN_of_fields h3 h0),
    fun w h3 h0 => decodeWord_of_encode (formatXYN_of_fields h3 h0),
    fun w h3 h0 => decodeWord_of_encode (formatXYN_of_fields h3 h0), fun x y s => ⟨?copy, ?or, ?and, ?xor⟩⟩
  case copy =>
    exact ⟨_, (Updates.ldReg x y).exec_eq, s.getV_setV_advance_self x _, rfl, (Frame.refl s).setV_advance _⟩
  case or =>
    refine ⟨_, (Updates.orReg x y).exec_eq, fun k => ?_, rfl, (Frame.refl s).setV_advance _⟩
    rw [State.getV_setV_advance_self, BitVec.getLsbD_or]
  case and =>
    refine ⟨_, (Updates.andReg x y).exec_eq, fun k => ?_, rfl, (Frame.refl s).setV_advance _⟩
    rw [State.getV_setV_advance_self, BitVec.getLsbD_and]
  case xor =>
    refine ⟨_, (Updates.xorReg x y).exec_eq, fun k => ?_, rfl, (Frame.refl s).setV_advance _⟩
    rw [State.getV_setV_advance_self, BitVec.getLsbD_xor]

/-! ## Addition and subtraction with a flag (R87, R88, R90, R93) -/

/-- A flag is 1 or 0 as its test holds or not (R38). -/
theorem toNat_flagByte_decide (p : Prop) [Decidable p] : (flagByte (decide p)).toNat = if p then 1 else 0 := by
  by_cases h : p <;> simp [flagByte, h]

/-- A difference of bytes is modulo 256; BitVec states it with the subtrahend's complement. -/
theorem toNat_sub_byte (a b : Byte) : (a - b).toNat = (a.toNat + 256 - b.toNat) % 256 := by
  have hb : b.toNat < 256 := b.isLt
  rw [BitVec.toNat_sub]
  omega

theorem exec_addReg (x y : Reg) (s : State) :
    exec (.addReg x y) s = writeWithFlag x (s.getV x + s.getV y) (carryFlag (s.getV x) (s.getV y)) s := rfl

theorem exec_sub (x y : Reg) (s : State) :
    exec (.sub x y) s = writeWithFlag x (s.getV x - s.getV y) (noBorrowFlag (s.getV x) (s.getV y)) s := rfl

theorem exec_subn (x y : Reg) (s : State) :
    exec (.subn x y) s = writeWithFlag x (s.getV y - s.getV x) (noBorrowFlag (s.getV y) (s.getV x)) s := rfl

/-- A sum written with its carry: both operands are read before either write, so X or Y may be F. -/
theorem writeSum_resultAndFlag (x : Reg) (a b : Byte) (s : State) :
    ∃ t, writeWithFlag x (a + b) (carryFlag a b) s = .next t ∧
      ResultAndFlag x ((a.toNat + b.toNat) % 256) (if a.toNat + b.toNat > 255 then 1 else 0) s t := by
  rw [← toNat_flagByte_decide]
  exact writeWithFlag_resultAndFlag x (a + b) (carryFlag a b) s

/-- A difference written with its no-borrow, for whichever of V[X] and V[Y] is the minuend. -/
theorem writeDifference_resultAndFlag (x : Reg) (a b : Byte) (s : State) :
    ∃ t, writeWithFlag x (a - b) (noBorrowFlag a b) s = .next t ∧
      ResultAndFlag x ((a.toNat + 256 - b.toNat) % 256) (if a.toNat ≥ b.toNat then 1 else 0) s t := by
  rw [← toNat_flagByte_decide, ← toNat_sub_byte]
  exact writeWithFlag_resultAndFlag x (a - b) (noBorrowFlag a b) s

/-- Settles O27: ADD writes V[X] + V[Y] with its carry. -/
theorem addSetsCarry : Obligations.AddSetsCarry := by
  refine ⟨fun w h3 h0 => decodeWord_of_encode (formatXYN_of_fields h3 h0), fun x y s => ?_⟩
  rw [exec_addReg]
  exact writeSum_resultAndFlag x (s.getV x) (s.getV y) s

/-- Settles O28: SUB writes V[X] - V[Y] with its no-borrow, SUBN the same with the operands exchanged. -/
theorem subtractionsSetNoBorrow : Obligations.SubtractionsSetNoBorrow := by
  refine ⟨fun w h3 h0 => decodeWord_of_encode (formatXYN_of_fields h3 h0),
    fun w h3 h0 => decodeWord_of_encode (formatXYN_of_fields h3 h0), fun x y s => ⟨?sub, ?subn⟩⟩
  case sub =>
    rw [exec_sub]
    exact writeDifference_resultAndFlag x (s.getV x) (s.getV y) s
  case subn =>
    rw [exec_subn]
    exact writeDifference_resultAndFlag x (s.getV y) (s.getV x) s

/-! ## Shifts in place (R89, R91) -/

/-- Settles O29: SHIFT_USES_VY is false on this hardware, so the operand of both shifts is V[X]. -/
theorem shiftsGiveTheBitShiftedOut : Obligations.ShiftsGiveTheBitShiftedOut := by
  refine ⟨fun w h3 h0 => decodeWord_of_encode (formatXYN_of_fields h3 h0),
    fun w h3 h0 => decodeWord_of_encode (formatXYN_of_fields h3 h0), fun x y s => ⟨?right, ?left⟩⟩
  case right =>
    rw [exec_shr]
    exact shiftRight_resultAndFlag false x y s
  case left =>
    rw [exec_shl]
    exact shiftLeft_resultAndFlag false x y s

/-! ## The random byte (R92, R124) -/

/-- Drawing a byte changes the count of draws only. -/
theorem frame_countDraw (s : State) : Frame [.draws] written s s.countDraw :=
  { Frame.refl s with draws := fun h => absurd (List.mem_singleton_self _) h }

/-- Settles O31: the byte of this draw is masked by NN, which leaves nothing of it when NN = 0. -/
theorem randomByteIsMasked : Obligations.RandomByteIsMasked := by
  refine ⟨fun w h3 => decodeWord_of_encode (formatXNN_of_fields h3 rfl), fun x nn s => ?_⟩
  have hresult := s.countDraw.getV_setV_advance_self x (s.nextRandom &&& nn)
  refine ⟨_, _, (Updates.rnd x nn).exec_eq, rfl, hresult, ?zero, rfl, rfl, (frame_countDraw s).setV_advance _⟩
  case zero =>
    rintro rfl
    exact hresult.trans BitVec.and_zero

end Sys2Proof.Machine

/-! PROOFS. Index register and memory transfer (42_index_memory.md): the three computations of I (R94-R96), the digits
and the registers stored from I on (R97, R98), and the registers loaded from there (R99). The shared facts come first:
what setting I, a store, a load and forgetting either leave unchanged, and what a fatal error after them leaves. -/

namespace Sys2Proof.Machine

variable {s u : State} {i : Instr} {f : Fault} {parts : List Part} {written : Reg → Prop}

/-! ## Frames of I, of memory and of several registers -/

theorem frame_setIdx (s : State) (w : Word) : Frame [.idx] noReg s (s.setIdx w) :=
  { Frame.refl s with idx := fun h => absurd (List.mem_singleton_self _) h }

theorem frame_setMem (s : State) (m : Memory) : Frame [.mem] noReg s (s.setMem m) :=
  { Frame.refl s with mem := fun h => absurd (List.mem_singleton_self _) h }

/-- Forgetting a store changes memory and the count of free values only. -/
theorem frame_forgetMem (s : State) (a n : Nat) : Frame [.mem, .fault, .frees] noReg s (s.forgetMem a n) :=
  { Frame.refl s with
    mem := fun h => absurd (by decide) h
    frees := fun h => absurd (by decide) h }

/-- A load of X + 1 bytes writes V0 through VX. -/
theorem frame_loadRegs (s : State) {x : Reg} {bs : List Byte} (h : bs.length = x.val + 1) :
    Frame parts (· ≤ x) s (s.loadRegs bs) :=
  { Frame.refl (written := (· ≤ x)) s with
    regs := fun r hr => by
      have hafter : x.val < r.val := Fin.not_le.mp hr
      rw [State.getV_loadRegs, dif_neg (by omega)] }

/-- Forgetting a load changes V0 through VX and the count of free values only. -/
theorem frame_forgetRegs (s : State) (a : Nat) (x : Reg) : Frame [.fault, .frees] (· ≤ x) s (s.forgetRegs a x) := by
  obtain ⟨-, e⟩ | ⟨-, e⟩ := State.forgetRegs_cases s a x
  · rw [e]
    exact Frame.refl s
  · rw [e]
    exact
      { frame_loadRegs s (length_freeBytes s (x.val + 1)) with
        frees := fun h => absurd (by decide) h }

/-- A frame that lists the fault stands when a fatal error is raised. -/
theorem Frame.raise (h : Frame parts written s u) (hf : Part.fault ∈ parts) (f : Fault) (op : Word) :
    Frame parts written s (raise f op u) :=
  { h with fault := fun hn => absurd hf hn }

/-- An instruction that raises leaves the record of its own word, and PC at itself (R111). -/
theorem Raises.faulted (h : Raises s i f u) : Faulted f (encode i) s (raise f (encode i) u) :=
  ⟨rfl, by rw [raise_eq, State.halt_err, h.sameControl.pc], h.sameControl.pc⟩

/-! ## I computed (R94-R96) -/

/-- I plus a byte is modulo 65536 (R95). -/
theorem toNat_add_zextByte (w : Word) (b : Byte) : (w + zextByte b).toNat = (w.toNat + b.toNat) % 65536 := by
  have hbyte : (zextByte b).toNat = b.toNat := BitVec.toNat_setWidth_of_le (by decide)
  rw [BitVec.toNat_add, hbyte]

/-- Settles O32: each sets I and advances. -/
theorem indexRegisterLoads : Obligations.IndexRegisterLoads := by
  refine ⟨fun w h3 => decodeWord_of_encode (formatA_of_fields h3),
    fun w h3 hnn => decodeWord_of_encode (formatXNN_of_fields h3 hnn),
    fun w h3 hnn => decodeWord_of_encode (formatXNN_of_fields h3 hnn),
    fun nnn s => ?load, fun x s => ?add, fun x s => ?glyph⟩
  case load => exact ⟨_, (Updates.ldI nnn).exec_eq, toNat_zextAddr nnn, rfl, (frame_setIdx s _).setPc _⟩
  case add => exact ⟨_, (Updates.addI x).exec_eq, toNat_add_zextByte s.idx _, rfl, (frame_setIdx s _).setPc _⟩
  case glyph => exact ⟨_, (Updates.ldF x).exec_eq, toNat_glyphAddress _, rfl, (frame_setIdx s _).setPc _⟩

/-! ## Stores from I on (R97, R98) -/

/-- A store of `n` bytes changes no byte outside them. -/
theorem otherBytesUnchanged_store (s : State) (a : Nat) {bs : List Byte} {n : Nat} (h : bs.length = n) :
    OtherBytesUnchanged a n s (s.setMem (Memory.writeBytes s.mem a bs)).advance :=
  fun _ hb => Memory.read_writeBytes_outside s.mem bs (h ▸ hb)

/-- A faulting store of `n` bytes changes no byte outside them. -/
theorem otherBytesUnchanged_forgetMem (s : State) (a n : Nat) (f : Fault) (op : Word) :
    OtherBytesUnchanged a n s (raise f op (s.forgetMem a n)) :=
  fun _ hb => s.read_forgetMem_outside hb

/-- Each decimal digit fits in a byte. -/
theorem toNat_decimalDigits (b : Byte) :
    (decimalDigits b).map BitVec.toNat = [b.toNat / 100, b.toNat / 10 % 10, b.toNat % 10] := by
  simp (disch := omega) only [decimalDigits, List.map_cons, List.map_nil, BitVec.toNat_ofNat, Nat.mod_eq_of_lt]

/-- After FX33's store, address a + k holds digit k. -/
theorem toNat_read_writeBytes_decimalDigits {m : Memory} (hwf : Memory.wf m = true) {a : Nat} (ha : a + 2 ≤ 0xFFF)
    (b : Byte) (k : Fin 3) : (Memory.read (Memory.writeBytes m a (decimalDigits b)) (a + k.val)).toNat =
      [b.toNat / 100, b.toNat / 10 % 10, b.toNat % 10][k] := by
  have hlen := length_decimalDigits b
  rw [Memory.read_writeBytes_inside hwf _ (by omega) (by omega : k.val < (decimalDigits b).length)]
  simp only [← toNat_decimalDigits, Fin.getElem_fin, List.getElem_map]

/-- Settles O33: the three digits are written from I on, or the three bytes are forgotten. -/
theorem decimalDigitsAreStored : Obligations.DecimalDigitsAreStored := by
  refine ⟨fun w h3 hnn => decodeWord_of_encode (formatXNN_of_fields h3 hnn), fun x s hwf h => ?stored,
    fun x s h => ?raised⟩
  case stored =>
    have digit := toNat_read_writeBytes_decimalDigits hwf h (s.getV x)
    exact ⟨_, (Updates.ldB x h).exec_eq, digit 0, digit 1, digit 2,
      otherBytesUnchanged_store s _ (length_decimalDigits _), rfl, (frame_setMem s _).setPc _⟩
  case raised =>
    have hraises := Raises.ldB x h
    exact ⟨_, hraises.exec_eq, hraises.faulted, otherBytesUnchanged_forgetMem s _ 3 _ _,
      (frame_forgetMem s _ 3).raise (by decide) _ _⟩

/-- Settles O34: V0 through VX are written from I on, or their X + 1 bytes are forgotten. -/
theorem registersAreStored : Obligations.RegistersAreStored := by
  refine ⟨fun w h3 hnn => decodeWord_of_encode (formatXNN_of_fields h3 hnn), fun x s hwf h => ?stored,
    fun x s h => ?raised⟩
  case stored =>
    exact ⟨_, (Updates.stRegs x h).exec_eq, fun k hk => read_writeBytes_regsUpTo hwf hk h,
      otherBytesUnchanged_store s _ (s.length_regsUpTo x), rfl, (frame_setMem s _).setPc _⟩
  case raised =>
    have hraises := Raises.stRegs x h
    exact ⟨_, hraises.exec_eq, hraises.faulted, otherBytesUnchanged_forgetMem s _ _ _ _,
      (frame_forgetMem s _ _).raise (by decide) _ _⟩

/-! ## Loads from I on (R99) -/

/-- After a load of the bytes at `n` addresses from `a`, V[k] is the byte at a + k. -/
theorem State.getV_loadRegs_bytesAt (s : State) (m : Memory) (a : Nat) {n : Nat} {k : Reg} (hk : k.val < n) :
    (s.loadRegs (bytesAt m a n)).getV k = Memory.read m (a + k.val) := by
  rw [State.getV_loadRegs, dif_pos (by rwa [length_bytesAt]), getElem_bytesAt]

/-- Settles O35: the X + 1 bytes from I on are loaded into V0 through VX, or these registers are forgotten. -/
theorem registersAreLoaded : Obligations.RegistersAreLoaded := by
  refine ⟨fun w h3 hnn => decodeWord_of_encode (formatXNN_of_fields h3 hnn), fun x s h => ?loaded,
    fun x s h => ?raised⟩
  case loaded =>
    exact ⟨_, (Updates.ldRegs x h).exec_eq, fun k hk => s.getV_loadRegs_bytesAt s.mem _ (Nat.lt_succ_of_le hk), rfl,
      (frame_loadRegs s (length_bytesAt _ _ _)).setPc _⟩
  case raised =>
    have hraises := Raises.ldRegs x h
    exact ⟨_, hraises.exec_eq, hraises.faulted, (frame_forgetRegs s _ x).raise (by decide) _ _⟩

end Sys2Proof.Machine

/-! PROOFS. Display (43_display.md): the frame cleared (R100), a sprite XORed onto it with its collision (R101, R102),
and two equal draws (R103). The shared facts come first: pixels as `fbAt` reads them, the bit of a sprite read from
memory, and what writing FB and a faulting draw leave unchanged. -/

namespace Sys2Proof.Machine

variable {s t u : State} {x y : Reg} {n : Nat} {parts : List Part} {written : Reg → Prop}

/-! ## Pixels and frames of FB -/

/-- The pixel port reads the frame inside its bounds (R34). -/
theorem pixel_eq_fbAt (s : State) (px : Fin 64) (py : Fin 32) : pixel s px py = fbAt s.fb px py :=
  (fbAt_inside s.fb px py).symm

theorem inside_of_fbAt {f : Framebuffer} {px py : Nat} (h : fbAt f px py = true) : px < 64 ∧ py < 32 := by
  by_contra hout
  exact absurd h (by simp [fbAt_outside f hout])

/-- Writing FB changes FB only. -/
theorem frame_setFb (hfb : Part.fb ∈ parts) (s : State) (f : Framebuffer) : Frame parts written s (s.setFb f) :=
  { Frame.refl s with fb := fun h => absurd hfb h }

/-- Settles O38: FB becomes the cleared frame, and nothing else is written. -/
theorem clearTurnsEveryPixelOff : Obligations.ClearTurnsEveryPixelOff := by
  refine ⟨decodeWord_encode .cls, fun s => ⟨_, Updates.cls.exec_eq, fun px py => ?_, rfl, ?_⟩⟩
  · exact (pixel_eq_fbAt _ px py).trans (fbAt_clearedFb px py)
  · exact (frame_setFb (List.mem_singleton_self _) s clearedFb).setPc _

/-! ## The bit of a sprite (R101, R102) -/

/-- No bit of a sprite falls outside its 8 columns and its rows. -/
theorem spriteAt_outside {x0 y0 px py : Nat} {rows : List Byte}
    (h : ¬ (x0 ≤ px ∧ px < x0 + 8 ∧ y0 ≤ py ∧ py < y0 + rows.length)) : spriteAt x0 y0 rows px py = false := by
  by_cases hrow : py - y0 < rows.length
  · have hbox : ¬ (y0 ≤ py ∧ x0 ≤ px ∧ px < x0 + 8) := by omega
    simp only [spriteAt, rowBit, ← Bool.and_assoc, ← Bool.decide_and, decide_eq_false hbox, Bool.false_and]
  · rw [spriteAt, List.getD_eq_default _ _ (Nat.le_of_not_lt hrow)]
    simp [rowBit]

/-- The sprite bits of the `n` rows at I are those `spriteBit` names. -/
theorem spriteAt_bytesAt (s : State) (x y : Reg) (n : Nat) (px : Fin 64) (py : Fin 32) :
    spriteAt (s.getV x).toNat (s.getV y).toNat (bytesAt s.mem s.idx.toNat n) px py = spriteBit s x y n px py := by
  by_cases hbox : (s.getV x).toNat ≤ px.val ∧ px.val < (s.getV x).toNat + 8 ∧ (s.getV y).toNat ≤ py.val ∧
      py.val < (s.getV y).toNat + n
  · obtain ⟨hleft, hright, htop, hbottom⟩ := hbox
    have hrow : py.val - (s.getV y).toNat < (bytesAt s.mem s.idx.toNat n).length := by
      rw [length_bytesAt]
      omega
    rw [spriteAt, List.getD_eq_getElem _ _ hrow, getElem_bytesAt]
    simp [rowBit, spriteBit, hleft, hright, htop, hbottom]
  · rw [spriteAt_outside (by rwa [length_bytesAt]), spriteBit, decide_eq_false hbox, Bool.false_and]

/-- A draw XORs the sprite bit into each pixel. -/
theorem fbAt_drawn (s : State) (x y : Reg) (n : Nat) (px : Fin 64) (py : Fin 32) :
    fbAt (drawn s x y n).1 px py = (pixel s px py ^^ spriteBit s x y n px py) := by
  rw [drawn, fbAt_drawRows, spriteAt_bytesAt, pixel_eq_fbAt, decide_eq_true ⟨px.isLt, py.isLt⟩, Bool.true_and]

/-- A draw collides exactly when a sprite bit of 1 falls on a pixel that is on. -/
theorem drawn_collides_iff (s : State) (x y : Reg) (n : Nat) :
    (drawn s x y n).2 = true ↔ ∃ px py, pixel s px py = true ∧ spriteBit s x y n px py = true := by
  rw [drawn, drawRows_snd]
  simp only [pixel_eq_fbAt, ← spriteAt_bytesAt]
  constructor
  · rintro (h | ⟨px, py, hon, hbit⟩)
    · exact absurd h Bool.false_ne_true
    · obtain ⟨hx, hy⟩ := inside_of_fbAt hon
      exact ⟨⟨px, hx⟩, ⟨py, hy⟩, hon, hbit⟩
  · rintro ⟨px, py, hon, hbit⟩
    exact .inr ⟨px, py, hon, hbit⟩

/-! ## One draw (R101) -/

theorem collisionFlag_eq_zero_or_one (b : Bool) : collisionFlag b = 0 ∨ collisionFlag b = 1 := by
  cases b
  · exact .inl rfl
  · exact .inr rfl

theorem collisionFlag_eq_one_iff {b : Bool} : collisionFlag b = 1 ↔ b = true := by
  cases b <;> decide

/-- `t` is `s` after DXYN drew its `n` rows at (V[X], V[Y]) and advanced. -/
structure SpriteDrawn (x y : Reg) (n : Nat) (s t : State) : Prop where
  pixels : ∀ px py, pixel t px py = (pixel s px py ^^ spriteBit s x y n px py)
  flag : t.getV regF = 0 ∨ t.getV regF = 1
  collision : t.getV regF = 1 ↔ ∃ px py, pixel s px py = true ∧ spriteBit s x y n px py = true
  pc : t.pc = s.pc + 2
  frame : Frame [.fb] (· = regF) s t

/-- DXYN draws its sprite when every row address is valid. -/
theorem exec_drw_spriteDrawn (x y : Reg) {n : Nibble} {s : State} (h : n = 0 ∨ s.idx.toNat + n.toNat ≤ 0x1000) :
    ∃ t, exec (.drw x y n) s = .next t ∧ SpriteDrawn x y n.toNat s t := by
  have hvF := (s.setFb (drawn s x y n.toNat).1).getV_setV_advance_self regF (collisionFlag (drawn s x y n.toNat).2)
  refine ⟨_, execDrw_valid x y n (h.imp_left (congrArg BitVec.toNat)), ?pixels, ?flag, ?collision, rfl, ?frame⟩
  case pixels =>
    intro px py
    exact (pixel_eq_fbAt _ px py).trans (fbAt_drawn s x y n.toNat px py)
  case flag =>
    rw [hvF]
    exact collisionFlag_eq_zero_or_one _
  case collision => rw [hvF, collisionFlag_eq_one_iff, drawn_collides_iff]
  case frame => exact (frame_setFb (List.mem_singleton_self _) s _).setV_advance _

/-! ## A faulting draw (R101, R111) -/

/-- A faulting draw changes FB, VF and the count of free values only. -/
theorem frame_forgetDraw (s : State) (x0 y0 a n : Nat) :
    Frame [.fault, .fb, .frees] (· = regF) s (s.forgetDraw x0 y0 a n) :=
  { Frame.setV (written := (· = regF)) (frame_setFb (by decide) s _) rfl _ with
    frees := fun h => absurd (by decide) h }

/-- A faulting draw changes no pixel outside the rows before the bad one. -/
theorem pixel_forgetDraw_outside (s : State) {x0 y0 a : Nat} (n : Nat) {px : Fin 64} {py : Fin 32}
    (h : ¬ (x0 ≤ px.val ∧ px.val < x0 + 8 ∧ y0 ≤ py.val ∧ py.val - y0 + a ≤ 0xFFF)) :
    pixel (s.forgetDraw x0 y0 a n) px py = pixel s px py := by
  have hbox : ¬ (x0 ≤ px.val ∧ px.val < x0 + 8 ∧ y0 ≤ py.val ∧
      py.val < y0 + (s.freeBytes (validCount a n)).length) := by
    rw [length_freeBytes, validCount]
    omega
  rw [pixel_eq_fbAt, pixel_eq_fbAt, State.forgetDraw_eq, State.countFrees_fb, State.setV_fb, State.setFb_fb,
    fbAt_drawRows, spriteAt_outside hbox, Bool.and_false, Bool.xor_false]

/-- Settles O39: the sprite is drawn, or the pixels of the rows before the bad one are forgotten. -/
theorem drawXorsClippedSprite : Obligations.DrawXorsClippedSprite := by
  refine ⟨fun w h3 => decodeWord_of_encode (formatXYN_of_fields h3 rfl), fun x y n s h => ?drawn,
    fun x y n s hn h => ?raised⟩
  case drawn =>
    obtain ⟨t, ht, hpixels, hflag, hcollision, hpc, hframe⟩ := exec_drw_spriteDrawn x y h
    exact ⟨t, ht, hpixels, hflag, hcollision, hpc, hframe⟩
  case raised =>
    have hraises := Raises.drw x y n (fun h0 => hn (BitVec.eq_of_toNat_eq h0)) h
    exact ⟨_, hraises.exec_eq, hraises.faulted, fun px py hout => pixel_forgetDraw_outside s n.toNat hout,
      (frame_forgetDraw s _ _ _ _).raise (by decide) _ _⟩

/-! ## Two equal draws (R103, log 22) -/

/-- A draw leaves its own sprite as it was: I, Mem and coordinates other than VF are outside its frame. -/
theorem SpriteDrawn.spriteBit_eq (h : SpriteDrawn x y n s t) (hx : x ≠ regF) (hy : y ≠ regF) (px : Fin 64)
    (py : Fin 32) : spriteBit t x y n px py = spriteBit s x y n px py := by
  simp only [spriteBit, h.frame.regs x hx, h.frame.regs y hy, h.frame.idx (by decide), h.frame.mem (by decide)]

/-- The second of two equal draws XORs every sprite bit away again. -/
theorem SpriteDrawn.fb_restored (h₁ : SpriteDrawn x y n s t) (h₂ : SpriteDrawn x y n t u) (hx : x ≠ regF)
    (hy : y ≠ regF) : u.fb = s.fb := by
  refine fb_ext fun px py => ?_
  calc pixel u px py
      = ((pixel s px py ^^ spriteBit s x y n px py) ^^ spriteBit s x y n px py) := by
        rw [h₂.pixels, h₁.pixels, h₁.spriteBit_eq hx hy]
    _ = pixel s px py := by rw [Bool.xor_assoc, Bool.xor_self, Bool.xor_false]

/-- The second of two equal draws collides exactly where the first turned a pixel on. -/
theorem SpriteDrawn.second_collision (h₁ : SpriteDrawn x y n s t) (h₂ : SpriteDrawn x y n t u) (hx : x ≠ regF)
    (hy : y ≠ regF) :
    u.getV regF = 1 ↔ ∃ px py, spriteBit s x y n px py = true ∧ pixel s px py = false := by
  have turnedOn (px : Fin 64) (py : Fin 32) : (pixel t px py = true ∧ spriteBit t x y n px py = true) ↔
      (spriteBit s x y n px py = true ∧ pixel s px py = false) := by
    rw [h₁.pixels, h₁.spriteBit_eq hx hy]
    cases pixel s px py <;> simp
  simp only [h₂.collision, turnedOn]

/-- A draw on a clear frame has no pixel to turn off. -/
theorem SpriteDrawn.flag_eq_zero_of_clear (h : SpriteDrawn x y n s t) (hclear : ∀ px py, pixel s px py = false) :
    t.getV regF = 0 := by
  refine h.flag.resolve_right fun hone => ?_
  obtain ⟨px, py, hon, -⟩ := h.collision.mp hone
  exact absurd (hclear px py) (by simp [hon])

/-- A second equal draw follows the first: I is outside the frame of a draw. -/
theorem exec_drw_twice (x y : Reg) {n : Nibble} {s : State} (h : n = 0 ∨ s.idx.toNat + n.toNat ≤ 0x1000) :
    ∃ t u, exec (.drw x y n) s = .next t ∧ exec (.drw x y n) t = .next u ∧ SpriteDrawn x y n.toNat s t ∧
      SpriteDrawn x y n.toNat t u := by
  obtain ⟨t, ht, h₁⟩ := exec_drw_spriteDrawn x y h
  have hidx : t.idx = s.idx := h₁.frame.idx (by decide)
  obtain ⟨u, hu, h₂⟩ := exec_drw_spriteDrawn x y (hidx ▸ h)
  exact ⟨t, u, ht, hu, h₁, h₂⟩

/-- Settles O40: both draws take the same sprite, and the second turns off exactly the pixels the first turned on. -/
theorem drawingTwiceRestoresTheFrame : Obligations.DrawingTwiceRestoresTheFrame := by
  refine ⟨fun x y n s hx hy h => ?restored, fun x y n s h hclear => ?clear, fun x y n s hx hy h hunlit => ?unlit⟩
  case restored =>
    obtain ⟨t, u, ht, hu, h₁, h₂⟩ := exec_drw_twice x y h
    exact ⟨t, u, ht, hu, h₁.fb_restored h₂ hx hy, h₁.second_collision h₂ hx hy⟩
  case clear =>
    obtain ⟨t, ht, h₁⟩ := exec_drw_spriteDrawn x y h
    exact ⟨t, ht, h₁.flag_eq_zero_of_clear hclear⟩
  case unlit =>
    obtain ⟨t, u, ht, hu, h₁, h₂⟩ := exec_drw_twice x y h
    refine ⟨t, u, ht, hu, (h₁.second_collision h₂ hx hy).trans ?_⟩
    exact exists₂_congr fun px py => and_iff_left_of_imp (hunlit px py)

end Sys2Proof.Machine

/-! PROOFS. Keypad and timers (44_keypad_timer_ops.md): the skips on a key's level (R104, R105), the transfers of the
timers (R106-R108), and the key wait (R109, R128). What setting a timer or keyWait leaves
unchanged comes first; the lowest key that is down, read from the levels of the 16 keys, comes before the key wait. -/

namespace Sys2Proof.Machine

variable {s t : State} {x : Reg} {parts : List Part} {written : Reg → Prop}

/-! ## Frames of the timers and of keyWait -/

theorem frame_setDt (s : State) (b : Byte) : Frame [.dt] noReg s (s.setDt b) :=
  { Frame.refl s with dt := fun h => absurd (List.mem_singleton_self _) h }

theorem frame_setSt (s : State) (b : Byte) : Frame [.st] noReg s (s.setSt b) :=
  { Frame.refl s with st := fun h => absurd (List.mem_singleton_self _) h }

/-- A frame that lists keyWait stands when keyWait is set. -/
theorem Frame.setKeyWait (h : Frame parts written s t) (hk : Part.keyWait ∈ parts) (b : Bool) :
    Frame parts written s (t.setKeyWait b) :=
  { h with keyWait := fun hn => absurd hk hn }

/-! ## Skips on a key (R104, R105) -/

/-- An instruction that raises with nothing forgotten changes `halted` and `err` only (R111). -/
theorem Raises.faulted_and_frame {i : Instr} {f : Fault} (h : Raises s i f s) :
    ∃ t, exec i s = .next t ∧ Faulted f (encode i) s t ∧ Frame [.fault] noReg s t :=
  ⟨_, h.exec_eq, h.faulted, frame_raise f (encode i) s⟩

/-- Settles O41: both are skips on the level of key V[X]; above 15 there is no such key, and both raise. -/
theorem keySkips : Obligations.KeySkips := by
  refine ⟨fun w h3 hnn => decodeWord_of_encode (formatXNN_of_fields h3 hnn),
    fun w h3 hnn => decodeWord_of_encode (formatXNN_of_fields h3 hnn), fun x s h => ⟨?skp, ?sknp⟩,
    fun x s h => ⟨?skpRaises, ?sknpRaises⟩⟩
  case skp => exact (Skips.skp x (Nat.le_of_lt_succ h)).pc_and_frame (by rw [keyDown_of_lt h])
  case sknp =>
    exact (Skips.sknp x (Nat.le_of_lt_succ h)).pc_and_frame (by rw [keyDown_of_lt h, Bool.not_eq_true'])
  case skpRaises => exact (Raises.skp x h).faulted_and_frame
  case sknpRaises => exact (Raises.sknp x h).faulted_and_frame

/-! ## Timers (R106-R108) -/

/-- Settles O42: each copies one byte, between V[X] and a timer, and advances. -/
theorem timerTransfers : Obligations.TimerTransfers := by
  refine ⟨fun w h3 hnn => decodeWord_of_encode (formatXNN_of_fields h3 hnn),
    fun w h3 hnn => decodeWord_of_encode (formatXNN_of_fields h3 hnn),
    fun w h3 hnn => decodeWord_of_encode (formatXNN_of_fields h3 hnn), fun x s => ⟨?readDt, ?writeDt, ?writeSt⟩⟩
  case readDt =>
    exact ⟨_, (Updates.ldVxDt x).exec_eq, s.getV_setV_advance_self x s.dt, rfl, (Frame.refl s).setV_advance s.dt⟩
  case writeDt => exact ⟨_, (Updates.ldDtVx x).exec_eq, rfl, rfl, (frame_setDt s _).setPc _⟩
  case writeSt => exact ⟨_, (Updates.ldStVx x).exec_eq, rfl, rfl, (frame_setSt s _).setPc _⟩

/-! ## The lowest key that is down (R33, R109) -/

theorem keyDown_val (k : Fin 16) (s : State) : keyDown k.val s = s.keys[k] := keyDown_of_lt k.isLt s

theorem anyKey_eq_none_of_keys (h : ∀ j : Fin 16, s.keys[j] = false) : anyKey s = none :=
  (anyKey_none s).mpr fun j hj => (keyDown_val ⟨j, hj⟩ s).trans (h ⟨j, hj⟩)

theorem anyKey_eq_some_of_lowest {k : Fin 16} (hk : s.keys[k] = true)
    (hlow : ∀ j : Fin 16, j < k → s.keys[j] = false) : anyKey s = some k.val := by
  rw [anyKey, List.find?_range_eq_some]
  refine ⟨(keyDown_val k s).trans hk, List.mem_range.mpr k.isLt, fun j hj => ?below⟩
  case below => rw [keyDown_val ⟨j, hj.trans k.isLt⟩ s, hlow _ hj, Bool.not_false]

/-! ## The key wait (R109) -/

/-- The number of a key fits in a byte. -/
theorem toNat_ofNat_key (k : Fin 16) : (BitVec.ofNat 8 k.val).toNat = k.val := by
  rw [BitVec.toNat_ofNat]
  omega

/-- Settles O43: with a lowest key down its number is stored and the wait ends; without one only keyWait is set. -/
theorem waitKeyStoresTheLowestKey : Obligations.WaitKeyStoresTheLowestKey := by
  refine ⟨fun w h3 hnn => decodeWord_of_encode (formatXNN_of_fields h3 hnn), fun x s k hk hlow => ?stored,
    fun x s hup => ?waits⟩
  case stored =>
    refine ⟨_, execLdVxK_key x (anyKey_eq_some_of_lowest hk hlow), ?value, rfl, rfl,
      (((Frame.refl s).setV (written := (· = x)) rfl _).setKeyWait (List.mem_singleton_self _) false).setPc _⟩
    case value =>
      rw [State.getV_advance, State.getV_setKeyWait, State.getV_setV, if_pos rfl, toNat_ofNat_key]
  case waits =>
    exact ⟨_, execLdVxK_wait x (anyKey_eq_none_of_keys hup), rfl, rfl,
      (Frame.refl s).setKeyWait (List.mem_singleton_self _) true⟩

/-! ## A key wait holds the program (R109, R128) -/

/-- A STEP on an FX0A with no key down sets keyWait and the mark that a STEP ran, and nothing else. -/
theorem step_of_keyWait (hsched : s.schedule = []) (running : s.halted = false) (hpc : s.pc.toNat + 1 ≤ 0xFFF)
    (hi : decodeWord (wordOfBytes (Memory.read s.mem s.pc.toNat) (Memory.read s.mem (s.pc.toNat + 1))) =
      some (.ldVxK x)) (hup : ∀ j : Fin 16, s.keys[j] = false) :
    step s = .next { s with keyWait := true, started := true } :=
  (step_of_decoded (.inl ⟨hsched, rfl⟩) running hpc hi).trans
    (execLdVxK_wait x (anyKey_eq_none_of_keys (s := s.markStarted) hup))

/-- Settles O44, by induction on the number of STEPs: the state after one STEP meets the same premises, and a further
STEP sets again what the first has set. -/
theorem keyWaitRepeatsUntilAKeyIsDown : Obligations.KeyWaitRepeatsUntilAKeyIsDown := by
  intro n x s hsched running hpc hi hup
  induction n generalizing s with
  | zero => rw [run_succ (step_of_keyWait hsched running hpc hi hup), run_zero]
  | succ n ih =>
    rw [run_succ (step_of_keyWait hsched running hpc hi hup)]
    exact ih { s with keyWait := true, started := true } hsched running hpc hi hup

end Sys2Proof.Machine

/-! PROOFS. Exceptions, timers and keys (60_exceptions.md): every step answers a next state (R111, R113), a halted block
stays halted until RESET (R112), an instruction raises exactly when its fault is due (R110, R114, R115), and what TICK
(R117, R120, R121) and SET_KEY (R123) do. What each transaction writes, and a timer after one TICK, come first. -/

namespace Sys2Proof.Machine

variable {s t u : State} {i : Instr} {f : Fault} {taken : Bool}

/-! ## What SET_KEY, LOAD and TICK write -/

/-- SET_KEY writes the keys only. -/
theorem setKey_eq (k : Nat) (b : Bool) (s : State) : (setKey k b s).2 = { s with keys := (setKey k b s).2.keys } := by
  rw [setKey]
  split <;> rfl

/-- LOAD writes Mem only. -/
theorem load_eq (bytes : List Byte) (s : State) : (load bytes s).2 = { s with mem := (load bytes s).2.mem } := by
  rw [load]
  split
  · rfl
  · split <;> rfl

theorem setKey_of_lt {k : Nat} (hk : k < 16) (b : Bool) (s : State) :
    setKey k b s = (.ok, { s with keys := s.keys.set k b hk }) := dif_pos hk

theorem setKey_of_ge {k : Nat} (hk : 16 ≤ k) (b : Bool) (s : State) : setKey k b s = (.refused, s) :=
  dif_neg (Nat.not_lt.mpr hk)

theorem keyDown_setKey {k : Nat} (hk : k < 16) (b : Bool) (s : State) (j : Nat) :
    keyDown j (setKey k b s).2 = if j = k then b else keyDown j s := by
  rw [setKey_of_lt hk]
  by_cases hj : j < 16
  · rw [keyDown_of_lt hj, keyDown_of_lt hj, Vector.getElem_set]
    simp only [eq_comm (a := k)]
  · have hne : j ≠ k := by omega
    rw [if_neg hne, keyDown, keyDown, dif_neg hj, dif_neg hj]

/-- A TICK takes one from a timer, not below 0 (R120). -/
theorem toNat_tickTimer (b : Byte) : (tickTimer b).toNat = b.toNat - 1 := by
  by_cases hb : b = 0
  · subst hb; rfl
  · have hpos : b.toNat ≠ 0 := fun e => hb (BitVec.eq_of_toNat_eq e)
    rw [tickTimer, if_neg hb]
    bv_omega

/-! ## Every step answers a next state (R111, R113) -/

/-- Settles O10: an instruction answers one of the states `Answers` lists, and no transaction faults or is refused. -/
theorem everyStepAnswersANextState : Obligations.EveryStepAnswersANextState := by
  refine ⟨fun i s => ?instruction, fun s => ?step⟩
  case instruction =>
    obtain ⟨t, ht⟩ := exists_answers i s
    exact ⟨t, ht.exec_eq⟩
  case step =>
    obtain ⟨tr, u, due⟩ := exists_due s
    obtain ⟨t, ht, -⟩ := transact_font tr u
    exact ⟨t, (step_of_due due).trans ht⟩

/-! ## A halted block (R112) -/

/-- No transaction but RESET ends a halt or touches its record. -/
theorem transact_of_halted (hs : s.halted = true) {tr : Transaction} (hr : tr ≠ .reset)
    (h : transact tr s = .next t) : t.halted = s.halted ∧ t.err = s.err ∧ t.pc = s.pc := by
  cases tr with
  | step =>
    obtain rfl := Host.Outcome.next.inj ((stepTransaction_halted hs).symm.trans h)
    exact ⟨rfl, rfl, rfl⟩
  | tick =>
    obtain rfl := Host.Outcome.next.inj h
    exact ⟨rfl, rfl, rfl⟩
  | setKey k b =>
    obtain rfl := Host.Outcome.next.inj h
    rw [setKey_eq]
    exact ⟨rfl, rfl, rfl⟩
  | load bytes =>
    obtain rfl := Host.Outcome.next.inj h
    rw [load_eq]
    exact ⟨rfl, rfl, rfl⟩
  | reset => exact absurd rfl hr

/-- Settles O9: the transaction that is due finds the block halted too. -/
theorem haltedBlockStaysHalted : Obligations.HaltedBlockStaysHalted := by
  refine ⟨fun s u due hu => (step_of_stepDue due).trans (stepTransaction_halted hu), ?other⟩
  case other =>
    intro s u t tr due hs h hr
    rw [step_of_due due, due_eq due] at h
    obtain ⟨hhalted, herr, hpc⟩ := transact_of_halted (s := { s with schedule := u.schedule }) hs hr h
    exact ⟨hhalted.trans hs, herr, hpc⟩

/-! ## Faults are raised exactly when due (R110, R111, R114, R115) -/

theorem Raises.faultCondition (h : Raises s i f u) : FaultCondition i s = some f := by
  cases h with
  | drw x y n hn h => exact if_pos ⟨hn, by omega⟩
  | _ => exact if_pos ‹_›

theorem Skips.faultCondition (h : Skips s i taken) : FaultCondition i s = none := by
  cases h with
  | skp x h => exact if_neg (Nat.not_lt.mpr h)
  | sknp x h => exact if_neg (Nat.not_lt.mpr h)
  | _ => rfl

theorem Updates.faultCondition (h : Updates s i u) : FaultCondition i s = none := by
  cases h with
  | drw x y n h => exact if_neg (by omega)
  | ldB x h => exact if_neg (Nat.not_lt.mpr h)
  | stRegs x h => exact if_neg (Nat.not_lt.mpr h)
  | ldRegs x h => exact if_neg (Nat.not_lt.mpr h)
  | _ => rfl

/-- An answer raises the fault that is due, or none is due and `halted` and `err` are left alone. -/
theorem Answers.faulted_or_no_fault (h : Answers s i t) :
    (∃ f, FaultCondition i s = some f ∧ Faulted f (encode i) s t) ∨
      (FaultCondition i s = none ∧ t.halted = s.halted ∧ t.err = s.err) := by
  cases h with
  | raised h => exact .inl ⟨_, h.faultCondition, h.faulted⟩
  | skipped h =>
    rw [State.skipIf_eq]
    exact .inr ⟨h.faultCondition, rfl, rfl⟩
  | advanced h => exact .inr ⟨h.faultCondition, h.sameControl.halted, h.sameControl.err⟩
  | jumped nnn => exact .inr ⟨rfl, rfl, rfl⟩
  | jumpedByV0 nnn => exact .inr ⟨rfl, rfl, rfl⟩
  | called nnn h => exact .inr ⟨if_neg (Nat.ne_of_lt h), rfl, rfl⟩
  | returned h => exact .inr ⟨if_neg (Nat.ne_of_gt h), rfl, rfl⟩
  | waiting x h => exact .inr ⟨rfl, rfl, rfl⟩

/-- Settles O50: the record holds the word of the instruction, and that is the word it was decoded from. -/
theorem faultsAreRaisedExactlyWhenDue : Obligations.FaultsAreRaisedExactlyWhenDue := by
  intro w i s t hw h
  obtain rfl := encode_of_decodeWord hw
  obtain ⟨f, due, hf⟩ | ⟨due, same⟩ := (answers_iff_exec.mpr h).faulted_or_no_fault
  · rw [due]
    exact hf
  · rw [due]
    exact same

/-! ## TICK (R120) -/

/-- Settles O11: TICK writes each timer less one. -/
theorem tickDecrementsTimers : Obligations.TickDecrementsTimers :=
  fun _ u due => ⟨tick u, step_of_due due, toNat_tickTimer u.dt, toNat_tickTimer u.st, rfl⟩

/-- Settles O12, by induction on the number of TICKs: those after the first run from the state it leaves. -/
theorem ticksCountDownToZero : Obligations.TicksCountDownToZero := by
  intro n s rest
  induction n generalizing s with
  | zero => exact ⟨{ s with schedule := rest }, rfl, rfl, rfl, rfl⟩
  | succ n ih =>
    obtain ⟨t, hrun, hdt, hst, ht⟩ := ih (tick s)
    have first : step { s with schedule := List.replicate (n + 1) .tick ++ rest } =
        .next { tick s with schedule := List.replicate n .tick ++ rest } := rfl
    have hdt' : t.dt.toNat = s.dt.toNat - 1 - n := hdt.trans (congrArg (· - n) (toNat_tickTimer s.dt))
    have hst' : t.st.toNat = s.st.toNat - 1 - n := hst.trans (congrArg (· - n) (toNat_tickTimer s.st))
    exact ⟨t, (run_succ first n).trans hrun, by omega, by omega, ht⟩

/-! ## TICK commutes with the instructions that use no timer (R117, R121) -/

theorem Raises.afterTick (h : Raises s i f u) : Raises (tick s) i f (tick u) := by
  cases h with
  | ldRegs x h =>
    have e : tick (s.forgetRegs s.idx.toNat x) = (tick s).forgetRegs s.idx.toNat x := by
      simp only [State.forgetRegs]; split <;> rfl
    rw [e]
    exact .ldRegs (s := tick s) x h
  | _ => constructor <;> assumption

theorem Skips.afterTick (h : Skips s i taken) : Skips (tick s) i taken := by
  cases h <;> constructor <;> assumption

/-- An update outside FX07, FX15 and FX18 neither reads nor writes a timer. -/
theorem Updates.afterTick (h : Updates s i u) (hreadDt : ∀ x, i ≠ .ldVxDt x) (hwriteDt : ∀ x, i ≠ .ldDtVx x)
    (hwriteSt : ∀ x, i ≠ .ldStVx x) : Updates (tick s) i (tick u) := by
  cases h with
  | ldVxDt x => exact absurd rfl (hreadDt x)
  | ldDtVx x => exact absurd rfl (hwriteDt x)
  | ldStVx x => exact absurd rfl (hwriteSt x)
  -- the same row of the relation, which mentions no timer
  | _ => constructor <;> assumption

theorem tick_skipIf (s : State) (taken : Bool) : tick (s.skipIf taken) = (tick s).skipIf taken := by
  cases taken <;> rfl

theorem Answers.afterTick (h : Answers s i t) (hreadDt : ∀ x, i ≠ .ldVxDt x) (hwriteDt : ∀ x, i ≠ .ldDtVx x)
    (hwriteSt : ∀ x, i ≠ .ldStVx x) : Answers (tick s) i (tick t) := by
  cases h with
  | raised h => exact .raised h.afterTick
  | skipped h =>
    rw [tick_skipIf]
    exact .skipped h.afterTick
  | advanced h => exact .advanced (h.afterTick hreadDt hwriteDt hwriteSt)
  | jumped nnn => exact .jumped (s := tick s) nnn
  | jumpedByV0 nnn => exact .jumpedByV0 (s := tick s) nnn
  | called nnn h => exact .called (s := tick s) nnn h
  | returned h => exact .returned (s := tick s) h
  | waiting x h => exact .waiting (s := tick s) x h

/-- Settles O51: the way an instruction is answered is the same after a TICK, and so is what it writes. -/
theorem tickCommutesWithOtherInstructions : Obligations.TickCommutesWithOtherInstructions :=
  fun _ _ _ h hreadDt hwriteDt hwriteSt => ((answers_iff_exec.mpr h).afterTick hreadDt hwriteDt hwriteSt).exec_eq

/-! ## SET_KEY (R123) -/

/-- No transaction but SET_KEY and RESET writes a key (R33). -/
theorem transact_keys {tr : Transaction} (hkey : ∀ k b, tr ≠ .setKey k b) (hr : tr ≠ .reset)
    (h : transact tr s = .next t) : t.keys = s.keys := by
  cases tr with
  | step =>
    obtain ⟨t', ht', hcases⟩ := stepTransaction_sameSurroundings s
    obtain rfl := Host.Outcome.next.inj (ht'.symm.trans h)
    obtain ⟨-, rfl⟩ | ⟨-, same⟩ := hcases
    · rfl
    · exact same.keys
  | tick =>
    obtain rfl := Host.Outcome.next.inj h
    rfl
  | setKey k b => exact absurd rfl (hkey k b)
  | load bytes =>
    obtain rfl := Host.Outcome.next.inj h
    rw [load_eq]
  | reset => exact absurd rfl hr

/-- Settles O13: below 16 the key is written, from 16 on nothing is. -/
theorem setKeyWritesOneKey : Obligations.SetKeyWritesOneKey := by
  refine ⟨fun k b s u due => ⟨(setKey k b u).2, step_of_due due, setKey_eq k b u, ?legal, ?refused⟩,
    fun tr s u t due hkey hr h => transact_keys hkey hr ((step_of_due due).symm.trans h)⟩
  case legal =>
    intro hk
    exact ⟨congrArg Prod.fst (setKey_of_lt (Nat.lt_succ_of_le hk) b u), keyDown_setKey (Nat.lt_succ_of_le hk) b u⟩
  case refused =>
    intro hk
    exact ⟨congrArg Prod.fst (setKey_of_ge hk b u), congrArg Prod.snd (setKey_of_ge hk b u)⟩

end Sys2Proof.Machine

/-! PROOFS. Reset and LOAD (70_reset_and_hazards.md): what LOAD copies and when it is refused (R132, R133, R135), which
transactions move the mark that a STEP ran (R135), and the values RESET leaves in any state (R130, R131). -/

namespace Sys2Proof.Machine

variable {s t : State} {bytes : List Byte}

/-! ## LOAD case by case (R132, R133, R135) -/

theorem load_of_started (hs : s.started = true) (bytes : List Byte) : load bytes s = (.refused, s) := if_pos hs

theorem load_of_tooLarge (hs : s.started = false) (h : 0x200 + bytes.length > 0x1000) :
    load bytes s = (.romTooLarge, s) :=
  (if_neg (ne_true_of_eq_false hs)).trans (if_pos h)

theorem load_of_fits (hs : s.started = false) (h : 0x200 + bytes.length ≤ 0x1000) :
    load bytes s = (.ok, s.setMem (Memory.writeBytes s.mem 0x200 bytes)) :=
  (if_neg (ne_true_of_eq_false hs)).trans (if_neg (Nat.not_lt.mpr h))

/-- Settles O14: an image that fits is written byte after byte from 0x200 on, within Mem. -/
theorem loadCopiesTheProgram : Obligations.LoadCopiesTheProgram := by
  intro bytes s u due hu hwf
  refine ⟨(load bytes u).2, step_of_due due, ?tooLarge, ?fits⟩
  case tooLarge =>
    intro h
    have e := load_of_tooLarge hu h
    exact ⟨congrArg Prod.fst e, congrArg Prod.snd e⟩
  case fits =>
    intro h
    have e := load_of_fits hu h
    refine ⟨congrArg Prod.fst e, load_eq bytes u, ?_⟩
    rw [e]
    exact ⟨Memory.wf_writeBytes hwf bytes h, fun _ => Memory.read_writeBytes_inside hwf bytes h,
      fun _ => Memory.read_writeBytes_outside u.mem bytes⟩

/-! ## The mark that a STEP ran (R135) -/

theorem stepTransaction_started (running : s.halted = false) (h : stepTransaction s = .next t) : t.started = true := by
  obtain ⟨t', ht', hcases⟩ := stepTransaction_sameSurroundings s
  obtain rfl := Host.Outcome.next.inj (ht'.symm.trans h)
  obtain ⟨halted, -⟩ | ⟨-, same⟩ := hcases
  · exact absurd halted (ne_true_of_eq_false running)
  · exact same.started

/-- Only STEP and RESET move the mark. -/
theorem transact_started {tr : Transaction} (hstep : tr ≠ .step) (hreset : tr ≠ .reset)
    (h : transact tr s = .next t) : t.started = s.started := by
  cases tr with
  | step => exact absurd rfl hstep
  | tick =>
    obtain rfl := Host.Outcome.next.inj h
    rfl
  | setKey k b =>
    obtain rfl := Host.Outcome.next.inj h
    rw [setKey_eq]
  | load bytes =>
    obtain rfl := Host.Outcome.next.inj h
    rw [load_eq]
  | reset => exact absurd rfl hreset

/-- Settles O15: a marked block refuses LOAD; the mark is set by a STEP that runs, cleared by RESET and kept by the
others. -/
theorem loadOnlyBeforeTheFirstStep : Obligations.LoadOnlyBeforeTheFirstStep := by
  refine ⟨fun bytes s u due hu => ?refused,
    fun s u t due running h => stepTransaction_started running ((step_of_stepDue due).symm.trans h),
    fun tr s u t due hstep hreset h => transact_started hstep hreset ((step_of_due due).symm.trans h),
    fun s u t due h => ?reset⟩
  case refused =>
    have e := load_of_started hu bytes
    exact ⟨(step_of_due due).trans (congrArg Host.Outcome.next (congrArg Prod.snd e)), congrArg Prod.fst e⟩
  case reset =>
    obtain rfl := Host.Outcome.next.inj ((step_of_due due).symm.trans h)
    rfl

/-! ## RESET (R130, R131) -/

/-- The values of R39 speak of the block's own state, not of the model's counters and schedule. -/
theorem resetTransaction_resetValues (s : State) : ResetValues s.font (resetTransaction s) :=
  resetWith_resetValues s.font

/-- Settles O17: RESET asks nothing of the state it runs in but the parameter FONT. -/
theorem resetTransactionGivesTheResetValues : Obligations.ResetTransactionGivesTheResetValues :=
  fun _ u due => ⟨resetTransaction u, step_of_due due, resetTransaction_resetValues u, rfl⟩

end Sys2Proof.Machine
